-- ==== Sys2Proof/Word.lean ====
section
/-! DEFINITION. The range of a finite word (spec/00_scope.md R7). Every value of the CORE is a mathematical
integer (R8), so a cell, a register and an argument are plain `Int`; there is no bit vector in this model. -/

namespace Sys2Proof

/-- The least integer of a `w`-bit signed word (R7): −2^(w−1). -/
def wordMin (w : Nat) : Int := -((2 ^ (w - 1) : Nat) : Int)

/-- The greatest integer of a `w`-bit signed word (R7): 2^(w−1) − 1. -/
def wordMax (w : Nat) : Int := ((2 ^ (w - 1) : Nat) : Int) - 1

end Sys2Proof
end

