-- ==== Sys2Proof/Config.lean ====
section
/-! DEFINITION. The implementation parameters (spec/00_scope.md R6) and WORD_RANGE (R7). The spec has the model take
them as arguments; `exec` and `step` have a fixed type, so a state carries them (`State.params`, log entry 2) and every
statement about all states holds for every value of them. The CORE has no open value (93_implementation_defined.md: "none
is `any value`"), so there is no opaque constant here. -/

namespace Sys2Proof

/-- A size that is a number or `unbounded` (R6, the type of WORD_BITS and of MEM_CAPACITY). -/
inductive Limit where
  | unbounded
  | finite (n : Nat)
deriving DecidableEq, Repr

/-- The four parameters of R6. -/
structure Params where
  /-- WORD_BITS: the width of a cell, a register and a computed value. -/
  wordBits : Limit
  /-- MEM_CAPACITY: writes at or above it raise CapacityFault (20_memory.md R46). -/
  memCapacity : Limit
  /-- STRICT_MODE_DIGITS: a mode digit 3 to 9 in a used slot raises InvalidMode (30_encoding.md R65). -/
  strictModeDigits : Bool
  /-- STRICT_WRITE_IMMEDIATE: mode digit 1 in the write slot raises InvalidMode (30_encoding.md R67). -/
  strictWriteImmediate : Bool
deriving DecidableEq, Repr

/-- Membership in WORD_RANGE (R7). -/
def Params.inRange (p : Params) (v : Int) : Bool :=
  match p.wordBits with
  | .unbounded => true
  | .finite w => decide (wordMin w ≤ v) && decide (v ≤ wordMax w)

/-- `a` is below MEM_CAPACITY (20_memory.md R46). -/
def Params.belowCapacity (p : Params) (a : Nat) : Bool :=
  match p.memCapacity with
  | .unbounded => true
  | .finite c => decide (a < c)

/-- The parameters the source admits: "The range is therefore at least the 64-bit signed range" (R7).
DEDUCED, safe: log entry 9. Only invariants assume it; every instruction runs for every width. -/
def Params.wf (p : Params) : Bool :=
  match p.wordBits with
  | .unbounded => true
  | .finite w => decide (64 ≤ w)

/-- The parameters of this hardware (R6). DESIGN CHOICE, unsafe: the spec leaves MEM_CAPACITY OPEN and the machine after
reset takes `unbounded`, the source's memory (D3, log entry 4). -/
def Params.hardware : Params where
  wordBits := .finite 64
  memCapacity := .unbounded
  strictModeDigits := false
  strictWriteImmediate := false

end Sys2Proof
end

