-- ==== Sys2Proof/Syntax.lean ====
section
/-! DEFINITION. The instructions of the CORE: one constructor of `Instr` per row of spec/opcode_table.json
(30_encoding.md R63, R64), with the argument and the addressing mode of every used slot. -/

namespace Sys2Proof

/-- The addressing modes (R65). -/
inductive Mode where
  | position
  | immediate
  | relative
deriving DecidableEq, Repr

/-- One used argument slot: its mode and its raw argument, the whole cell (R60, R69). The digits of a label that R61, R65
and R66 ignore are not kept (log entry 15). -/
structure Arg where
  mode : Mode
  raw : Int
deriving DecidableEq, Repr

/-- The ten opcodes of R63. Unknown is no opcode: it is a decode error (R71). -/
inductive Opcode where
  | add | mul | inp | out | jt | jf | lt | eq | arb | hlt
deriving DecidableEq, Repr

/-- A decoded instruction. `x`, `y` are read arguments, `d` is the write target (R64). -/
inductive Instr where
  /-- ADD, 41_arithmetic.md R100. -/
  | add (x y d : Arg)
  /-- MUL, 41_arithmetic.md R101. -/
  | mul (x y d : Arg)
  /-- IN, 42_io.md R110. -/
  | inp (d : Arg)
  /-- OUT, 42_io.md R111. -/
  | out (x : Arg)
  /-- JT, 43_jumps.md R120: condition, target. -/
  | jt (x y : Arg)
  /-- JF, 43_jumps.md R121: condition, target. -/
  | jf (x y : Arg)
  /-- LT, 44_compare.md R130. -/
  | lt (x y d : Arg)
  /-- EQ, 44_compare.md R131. -/
  | eq (x y d : Arg)
  /-- ARB, 45_relative_base.md R140. -/
  | arb (x : Arg)
  /-- HLT, 40_engine.md R83. -/
  | hlt
deriving DecidableEq, Repr

/-- What the decoder reads from a label (R70): the opcode and three modes, unused slots Position (R66). -/
structure Head where
  op : Opcode
  m1 : Mode
  m2 : Mode
  m3 : Mode
deriving DecidableEq, Repr

/-- Why a label is no instruction (R70, R71). -/
inductive DecodeError where
  /-- A negative label, or O outside 1..9, 99 (R62, R63). -/
  | unknown (label : Int)
  /-- A bad mode digit under a strictness parameter (R65, R67). -/
  | invalidMode (label : Int) (slot digit : Nat)
deriving DecidableEq, Repr

end Sys2Proof
end

