-- ==== Sys2Proof/WellFormed.lean ====
section
/-! DEFINITION. The instructions that some cells hold: every raw argument a cell value (30_encoding.md R69), and no
Immediate write target where STRICT_WRITE_IMMEDIATE makes that encoding illegal (R67, R71). -/

namespace Sys2Proof

/-- A read argument: its cell holds a value of WORD_RANGE (R69). -/
def Arg.wfRead (p : Params) (x : Arg) : Bool := p.inRange x.raw

/-- A write target: also, its digit is not 1 under STRICT_WRITE_IMMEDIATE (R67). -/
def Arg.wfWrite (p : Params) (d : Arg) : Bool :=
  p.inRange d.raw && !(p.strictWriteImmediate && decide (d.mode = .immediate))

/-- The instruction has an encoding in cells under the parameters. -/
def Instr.wf (p : Params) : Instr → Bool
  | .add x y d => x.wfRead p && y.wfRead p && d.wfWrite p
  | .mul x y d => x.wfRead p && y.wfRead p && d.wfWrite p
  | .inp d => d.wfWrite p
  | .out x => x.wfRead p
  | .jt x y => x.wfRead p && y.wfRead p
  | .jf x y => x.wfRead p && y.wfRead p
  | .lt x y d => x.wfRead p && y.wfRead p && d.wfWrite p
  | .eq x y d => x.wfRead p && y.wfRead p && d.wfWrite p
  | .arb x => x.wfRead p
  | .hlt => true

end Sys2Proof
end

