-- ==== Sys2Proof/Decode.lean ====
section
/-! DEFINITION. The decoder and the assembler (spec/30_encoding.md). A label is split by decimal digits, never by bits
(R61). `decode` is total: it answers an instruction or a `DecodeError`. -/

namespace Sys2Proof

/-- The k-th decimal digit, counting from 0 at the units (00_scope.md R8). -/
def digit (v k : Nat) : Nat := v / 10 ^ k % 10

/-- The number O of an opcode (R63). -/
def Opcode.number : Opcode → Nat
  | .add => 1
  | .mul => 2
  | .inp => 3
  | .out => 4
  | .jt => 5
  | .jf => 6
  | .lt => 7
  | .eq => 8
  | .arb => 9
  | .hlt => 99

/-- OPMAP (R63): every other value of O is Unknown. -/
def opcodeOf : Nat → Option Opcode
  | 1 => some .add
  | 2 => some .mul
  | 3 => some .inp
  | 4 => some .out
  | 5 => some .jt
  | 6 => some .jf
  | 7 => some .lt
  | 8 => some .eq
  | 9 => some .arb
  | 99 => some .hlt
  | _ => none

/-- Length in cells (R64, R72). -/
def Opcode.length : Opcode → Nat
  | .add | .mul | .lt | .eq => 4
  | .jt | .jf => 3
  | .inp | .out | .arb => 2
  | .hlt => 1

/-- `nargs(op) = length(op) − 1` (R64). -/
def Opcode.nargs (op : Opcode) : Nat := op.length - 1

/-- The write slot, 1 to 3 (R64). -/
def Opcode.writeSlot : Opcode → Option Nat
  | .add | .mul | .lt | .eq => some 3
  | .inp => some 1
  | .out | .jt | .jf | .arb | .hlt => none

/-- The mode of digit `d` in used slot `i` of a label `L ≥ 0` with opcode `op` (R65, R67). -/
def digitMode (p : Params) (L : Nat) (op : Opcode) (i d : Nat) : Except DecodeError Mode :=
  match d with
  | 0 => .ok .position
  | 1 =>
    if op.writeSlot = some i ∧ p.strictWriteImmediate = true then .error (.invalidMode L i 1)
    else .ok .immediate
  | 2 => .ok .relative
  | d => if p.strictModeDigits = true then .error (.invalidMode L i d) else .ok .position

/-- The mode of slot `i` (R70, the body of its loop): Position where the opcode does not use the slot, whatever the digit (R66). -/
def slotMode (p : Params) (L : Nat) (op : Opcode) (i : Nat) : Except DecodeError Mode :=
  if op.nargs < i then .ok .position else digitMode p L op i (digit L (i + 1))

/-- `Decode(L)` of R70. -/
def decodeLabel (p : Params) (L : Int) : Except DecodeError Head :=
  if L < 0 then .error (.unknown L)
  else match opcodeOf (L.toNat % 100) with
    | none => .error (.unknown L)
    | some op => do
      let m1 ← slotMode p L.toNat op 1
      let m2 ← slotMode p L.toNat op 2
      let m3 ← slotMode p L.toNat op 3
      return { op := op, m1 := m1, m2 := m2, m3 := m3 }

/-- The instruction of a decoded label and its raw arguments: `arg i` is argument cell i (R60, R68). -/
def Head.instr (h : Head) (arg : Nat → Int) : Instr :=
  match h.op with
  | .add => .add ⟨h.m1, arg 1⟩ ⟨h.m2, arg 2⟩ ⟨h.m3, arg 3⟩
  | .mul => .mul ⟨h.m1, arg 1⟩ ⟨h.m2, arg 2⟩ ⟨h.m3, arg 3⟩
  | .inp => .inp ⟨h.m1, arg 1⟩
  | .out => .out ⟨h.m1, arg 1⟩
  | .jt => .jt ⟨h.m1, arg 1⟩ ⟨h.m2, arg 2⟩
  | .jf => .jf ⟨h.m1, arg 1⟩ ⟨h.m2, arg 2⟩
  | .lt => .lt ⟨h.m1, arg 1⟩ ⟨h.m2, arg 2⟩ ⟨h.m3, arg 3⟩
  | .eq => .eq ⟨h.m1, arg 1⟩ ⟨h.m2, arg 2⟩ ⟨h.m3, arg 3⟩
  | .arb => .arb ⟨h.m1, arg 1⟩
  | .hlt => .hlt

/-- Decode a label and fetch its arguments (40_engine.md R82, R84). -/
def decode (p : Params) (L : Int) (arg : Nat → Int) : Except DecodeError Instr := do
  let h ← decodeLabel p L
  return h.instr arg

/-- The opcode of an instruction. -/
def Instr.opcode : Instr → Opcode
  | .add _ _ _ => .add
  | .mul _ _ _ => .mul
  | .inp _ => .inp
  | .out _ => .out
  | .jt _ _ => .jt
  | .jf _ _ => .jf
  | .lt _ _ _ => .lt
  | .eq _ _ _ => .eq
  | .arb _ => .arb
  | .hlt => .hlt

/-- The length of an instruction in cells (R60, R64). -/
def Instr.length (i : Instr) : Nat := i.opcode.length

/-- Decode the instruction at the head of a list of cells and answer the rest; a cell past the list's end is 0, as a cell
past the extent is (20_memory.md R43). -/
def decodeCells (p : Params) (cells : List Int) : Except DecodeError (Instr × List Int) := do
  let i ← decode p (cells.getD 0 0) (fun k => cells.getD k 0)
  return (i, cells.drop i.length)

/-- The mode digit the assembler writes (R74). -/
def Mode.digit : Mode → Nat
  | .position => 0
  | .immediate => 1
  | .relative => 2

/-- The label of an opcode and the digits of its three slots (R61, R74). -/
def labelOf (op : Opcode) (d1 d2 d3 : Nat) : Int :=
  ((op.number + 100 * d1 + 1000 * d2 + 10000 * d3 : Nat) : Int)

/-- The label the assembler emits: unused digits are 0 (R74). -/
def Instr.label (i : Instr) : Int :=
  match i with
  | .add x y d | .mul x y d | .lt x y d | .eq x y d =>
    labelOf i.opcode x.mode.digit y.mode.digit d.mode.digit
  | .jt x y | .jf x y => labelOf i.opcode x.mode.digit y.mode.digit 0
  | .inp x | .out x | .arb x => labelOf i.opcode x.mode.digit 0 0
  | .hlt => labelOf i.opcode 0 0 0

/-- The raw arguments, in slot order (R60). -/
def Instr.args : Instr → List Int
  | .add x y d | .mul x y d | .lt x y d | .eq x y d => [x.raw, y.raw, d.raw]
  | .jt x y | .jf x y => [x.raw, y.raw]
  | .inp x | .out x | .arb x => [x.raw]
  | .hlt => []

/-- Assembling: the cells `L, arg1, ..., arg_nargs` (R74). -/
def encode (i : Instr) : List Int := i.label :: i.args

/-- A 64-bit word read as a signed integer: the host's bit view of one cell. The CORE has no bit view (41_arithmetic.md R103);
DESIGN CHOICE, log entry 12. -/
def signedWord (n : Nat) : Int := if n < 2 ^ 63 then (n : Int) else (n : Int) - 2 ^ 64

/-- The four cells (the longest instruction) of `nbits` bits `w`, the first cell in bits 63..0. Log entry 12. -/
def tableCells (nbits w : Nat) : List Int :=
  let v := w % 2 ^ nbits
  [signedWord (v % 2 ^ 64), signedWord (v / 2 ^ 64 % 2 ^ 64),
   signedWord (v / 2 ^ 128 % 2 ^ 64), signedWord (v / 2 ^ 192 % 2 ^ 64)]

/-- The instruction this hardware's decoder reads from a table word. -/
def decodeTableWord (nbits w : Nat) : Option Instr :=
  match decodeCells Params.hardware (tableCells nbits w) with
  | .ok (i, _) => some i
  | .error _ => none

end Sys2Proof
end

