-- ==== Sys2Proof/Machine/State.lean ====
section
/-! DEFINITION. The architectural state of one engine (spec/10_state.md R20), its faults (60_exceptions.md R150), the
refusals of a launch (70_reset_and_hazards.md R181), and the state after reset. Plain data throughout. -/

namespace Sys2Proof.Machine

/-- The access kinds an address fault records (60_exceptions.md R153). -/
inductive Access where
  | fetch
  | read
  | write
deriving DecidableEq, Repr

/-- The six faults (60_exceptions.md R150), each with what its record holds (R151 to R157): `ip` is the address of the
faulting instruction's label, `label` the raw label. Every one is precise and ends the run (R90, R159). -/
inductive Fault where
  /-- Code 1. The fetch of a label that is negative or names no opcode (R151). The spec's own fault: safe. -/
  | decodeFault (ip label : Int)
  /-- Code 2. IN with an empty input queue (R152). The spec's own fault: safe. -/
  | inputUnderflow (ip label : Int)
  /-- Code 3. Any access to a negative address (R153); a fetch has no label. The spec's own fault: safe. -/
  | addressFault (addr : Int) (access : Access) (ip : Int) (label : Option Int)
  /-- Code 4. A sum, product, new rb, Relative sum or advance outside WORD_RANGE (R154). The spec's own fault: safe. -/
  | arithmeticOverflow (value ip label : Int)
  /-- Code 5. A write at or above a finite MEM_CAPACITY (R155). The spec's own fault: safe. -/
  | capacityFault (addr ip label : Int)
  /-- Code 6. A bad mode digit under a strictness parameter, at decode (R156). The spec's own fault: safe. -/
  | invalidMode (slot digit : Nat) (ip label : Int)
deriving DecidableEq, Repr

/-- The detail of a fault record (60_exceptions.md R157). -/
inductive FaultDetail where
  | nothing
  | address (addr : Int) (access : Access)
  | value (v : Int)
  | slotDigit (slot digit : Nat)
deriving DecidableEq, Repr

/-- The fault record as 60_exceptions.md R157 lays it out; `Fault.record` computes it. -/
structure FaultRecord where
  code : Nat
  ip : Int
  label : Option Int
  detail : FaultDetail
deriving DecidableEq, Repr

/-- Why nothing is run. -/
inductive Refusal where
  /-- An instruction without a meaning yet, raised by `exec` only. No arm of this model answers it. Safe. -/
  | notModelled (mnemonic : String)
  /-- `construct` given an image holding `value`, outside WORD_RANGE (R181). The spec's own refusal: safe. -/
  | imageOutOfRange (value : Int)
  /-- A driving mode given an input sequence holding `value`, outside WORD_RANGE (R181). The spec's own refusal: safe. -/
  | inputOutOfRange (value : Int)
deriving DecidableEq, Repr

/-- The engine's status (10_state.md R30). -/
inductive Status where
  | running
  | halted
  | faulted (f : Fault)
deriving DecidableEq, Repr

/-- The memory (20_memory.md R40, R42): the non-zero cells by address, addresses strictly rising, and the extent. An address
that is not listed holds 0, the spec's zero fill (R43, R47). -/
structure Memory where
  cells : List (Nat × Int)
  extent : Nat
deriving DecidableEq, Repr

/-- The state of one engine (10_state.md R20) and the parameters it was built with (00_scope.md R6, log entry 2). -/
structure State where
  /-- The instruction pointer (R22). -/
  ip : Int
  /-- The relative base (R25). -/
  rb : Int
  /-- The memory with its extent (20_memory.md R40, R42). -/
  mem : Memory
  /-- Running, Halted or Faulted (R30). -/
  status : Status
  /-- The input queue, head first (42_io.md R112). -/
  inq : List Int
  /-- The output stream, in emission order (42_io.md R113). -/
  out : List Int
  /-- The parameters, "fixed when the engine is built" (R27). -/
  params : Params
deriving DecidableEq, Repr

/-- The state right after reset: the construction of 70_reset_and_hazards.md R180 from the empty image (allowed by R181) with
the parameters of this hardware. A program comes in by `construct` (log entry 5). -/
def State.reset : State where
  ip := 0
  rb := 0
  mem := { cells := [], extent := 0 }
  status := .running
  inq := []
  out := []
  params := Params.hardware

end Sys2Proof.Machine
end

