-- ==== Sys2Proof/Machine/Ops.lean ====
section
/-! DEFINITION. The named operations over memory and registers, and how a fault is taken. A part of an instruction that can
fault answers `Except Fault`, and the first fault ends the step (spec/40_engine.md R88, R90). -/

namespace Sys2Proof.Machine

/-! ### Register and port updates: one per field -/

/-- `ip <- v` (10_state.md R22). -/
def State.withIp (s : State) (v : Int) : State := { s with ip := v }
/-- `rb <- v` (10_state.md R25). -/
def State.withRb (s : State) (v : Int) : State := { s with rb := v }
/-- The memory after a write. -/
def State.withMem (s : State) (m : Memory) : State := { s with mem := m }
/-- The status (10_state.md R30). -/
def State.withStatus (s : State) (v : Status) : State := { s with status := v }
/-- The input queue (42_io.md R112). -/
def State.withInq (s : State) (q : List Int) : State := { s with inq := q }
/-- The output stream (42_io.md R113). -/
def State.withOut (s : State) (q : List Int) : State := { s with out := q }

/-! ### The cells of memory -/

/-- The value listed for an address, 0 where none is (20_memory.md R47). -/
def lookup : List (Nat × Int) → Nat → Int
  | [], _ => 0
  | (b, w) :: t, a => if b = a then w else lookup t a

/-- Put an entry before the first entry of a greater address. -/
def insertCell (a : Nat) (v : Int) : List (Nat × Int) → List (Nat × Int)
  | [] => [(a, v)]
  | (b, w) :: t => if a < b then (a, v) :: (b, w) :: t else (b, w) :: insertCell a v t

/-- Set one cell, keeping the canonical form: no entry for the value 0. -/
def setCell (l : List (Nat × Int)) (a : Nat) (v : Int) : List (Nat × Int) :=
  let rest := l.filter (fun c => decide (c.1 ≠ a))
  if v = 0 then rest else insertCell a v rest

/-- Strictly rising addresses. -/
def rising : List (Nat × Int) → Bool
  | [] => true
  | [_] => true
  | c :: d :: t => decide (c.1 < d.1) && rising (d :: t)

/-- The canonical form: addresses strictly rising, no entry holding 0, every entry below the extent (10_state.md R20). -/
def Memory.wf (m : Memory) : Bool :=
  rising m.cells && m.cells.all (fun c => decide (c.2 ≠ 0)) && m.cells.all (fun c => decide (c.1 < m.extent))

/-- The value of the cell at `a`: 0 at or beyond the extent (20_memory.md R43). -/
def Memory.cell (m : Memory) (a : Nat) : Int :=
  if m.extent ≤ a then 0 else lookup m.cells a

/-- Store `v` at `a`; at or beyond the extent, grow and zero-fill the gap (20_memory.md R44). -/
def Memory.store (m : Memory) (a : Nat) (v : Int) : Memory :=
  if m.extent ≤ a then
    { cells := setCell (m.cells.filter (fun c => decide (c.1 < m.extent))) a v, extent := a + 1 }
  else { cells := setCell m.cells a v, extent := m.extent }

/-- The listed cells of an image whose first cell is at `base`. -/
def imageCells : Nat → List Int → List (Nat × Int)
  | _, [] => []
  | base, v :: t => if v = 0 then imageCells (base + 1) t else (base, v) :: imageCells (base + 1) t

/-- A private copy of a program image (70_reset_and_hazards.md R180). -/
def Memory.ofImage (image : List Int) : Memory :=
  { cells := imageCells 0 image, extent := image.length }

/-- Store consecutive cells from `a` on, as the host places an instruction (`State.withFetchWord`). -/
def Memory.place (m : Memory) : Nat → List Int → Memory
  | _, [] => m
  | a, v :: t => Memory.place (m.store a v) (a + 1) t

/-! ### Checked arithmetic, reads and writes -/

/-- The raw label of the instruction at `ip`, which a fault record holds (60_exceptions.md R157, log entry 8). -/
def State.label (s : State) : Int := s.mem.cell s.ip.toNat

/-- `checked(v)` (00_scope.md R8): v, or ArithmeticOverflow outside WORD_RANGE (60_exceptions.md R154). -/
def checked (s : State) (v : Int) : Except Fault Int :=
  if s.params.inRange v = true then .ok v else .error (.arithmeticOverflow v s.ip s.label)

/-- `MemRead(a, 1)` as a data read (20_memory.md R43, R45). -/
def memRead (s : State) (a : Int) : Except Fault Int :=
  if a < 0 then .error (.addressFault a .read s.ip (some s.label)) else .ok (s.mem.cell a.toNat)

/-- `MemWrite(a, 1, v)` (20_memory.md R44, R45, R46): both checks come before any change. -/
def memWrite (s : State) (a v : Int) : Except Fault Memory :=
  if a < 0 then .error (.addressFault a .write s.ip (some s.label))
  else if s.params.belowCapacity a.toNat = true then .ok (s.mem.store a.toNat v)
  else .error (.capacityFault a s.ip s.label)

/-- The checked advance past an instruction (40_engine.md R85, 10_state.md R24). -/
def advance (s : State) (op : Opcode) : Except Fault Int := checked s (s.ip + op.length)

/-- `take(inq)` (42_io.md R110, R112): the head and the rest, or InputUnderflow. -/
def takeInput (s : State) : Except Fault (Int × List Int) :=
  match s.inq with
  | [] => .error (.inputUnderflow s.ip s.label)
  | v :: q => .ok (v, q)

/-! ### Taking a fault -/

/-- The numeric code of a fault (60_exceptions.md R150). -/
def Fault.code : Fault → Nat
  | .decodeFault _ _ => 1
  | .inputUnderflow _ _ => 2
  | .addressFault _ _ _ _ => 3
  | .arithmeticOverflow _ _ _ => 4
  | .capacityFault _ _ _ => 5
  | .invalidMode _ _ _ _ => 6

/-- The record of a fault (60_exceptions.md R157). -/
def Fault.record : Fault → FaultRecord
  | .decodeFault ip label => ⟨1, ip, some label, .nothing⟩
  | .inputUnderflow ip label => ⟨2, ip, some label, .nothing⟩
  | .addressFault addr access ip label => ⟨3, ip, label, .address addr access⟩
  | .arithmeticOverflow v ip label => ⟨4, ip, some label, .value v⟩
  | .capacityFault addr ip label => ⟨5, ip, some label, .address addr .write⟩
  | .invalidMode slot digit ip label => ⟨6, ip, some label, .slotDigit slot digit⟩

/-- Taking a fault: nothing of the faulting step is kept, the status becomes Faulted (40_engine.md R90, 60_exceptions.md R159). There is
no return from it (R160). -/
def takeFault (s : State) (f : Fault) : State := s.withStatus (.faulted f)

/-- The outcome of an instruction: its next state, or the first fault it raised (40_engine.md R80, R90). -/
def conclude (r : Except Fault State) : Host.Outcome State Fault Refusal :=
  match r with
  | .ok t => .next t
  | .error f => .fault f

/-- A decode error as the fault of the step at `ip` (60_exceptions.md R151, R156). -/
def decodeErrorFault (ip : Int) (e : DecodeError) : Fault :=
  match e with
  | .unknown label => .decodeFault ip label
  | .invalidMode label slot digit => .invalidMode slot digit ip label

end Sys2Proof.Machine
end

