-- ==== Sys2Proof/Machine/Operands.lean ====
section
/-! DEFINITION. Operand resolution (spec/40_engine.md R86, R87; 45_relative_base.md R141) and the shape shared by the
instructions with a write slot. -/

namespace Sys2Proof.Machine

/-- `rb + arg`, checked (45_relative_base.md R141). -/
def relativeAddr (s : State) (raw : Int) : Except Fault Int := checked s (s.rb + raw)

/-- `Rd(i)`: the value of a read argument (R86). -/
def rd (s : State) (x : Arg) : Except Fault Int :=
  match x.mode with
  | .immediate => .ok x.raw
  | .position => memRead s x.raw
  | .relative => do
    let a ← relativeAddr s x.raw
    memRead s a

/-- `Wa(i)`: the address of a write target (R87); Immediate resolves as Position (30_encoding.md R67). -/
def wa (s : State) (d : Arg) : Except Fault Int :=
  match d.mode with
  | .relative => relativeAddr s d.raw
  | .position => .ok d.raw
  | .immediate => .ok d.raw

/-- Steps 3 and 4 of R88 for a write slot: resolve the destination, write `v`, with `ip` advanced to `next`. -/
def writeBack (s : State) (next : Int) (d : Arg) (v : Int) : Except Fault State := do
  let a ← wa s d
  let m ← memWrite s a v
  return (s.withIp next).withMem m

/-- The shape of ADD, MUL, LT and EQ (R88): advance, both reads in slot order, the result, the write. -/
def storeBinary (op : Opcode) (result : Int → Int → Except Fault Int) (x y d : Arg) (s : State) :
    Except Fault State := do
  let next ← advance s op
  let a ← rd s x
  let b ← rd s y
  let v ← result a b
  writeBack s next d v

/-- The shape of JT and JF (R88, 43_jumps.md R120, R121): both operands are always resolved. -/
def jumpIf (op : Opcode) (taken : Int → Bool) (x y : Arg) (s : State) : Except Fault State := do
  let next ← advance s op
  let c ← rd s x
  let g ← rd s y
  return s.withIp (if taken c = true then g else next)

end Sys2Proof.Machine
end

