-- ==== Sys2Proof/Machine/Arithmetic.lean ====
section
/-! DEFINITION. ADD and MUL (spec/41_arithmetic.md). -/

namespace Sys2Proof.Machine

/-- ADD (R100): the exact sum, checked (R102). -/
def execAdd (x y d : Arg) (s : State) : Host.Outcome State Fault Refusal :=
  conclude (storeBinary .add (fun a b => checked s (a + b)) x y d s)

/-- MUL (R101): the exact product, checked (R102). -/
def execMul (x y d : Arg) (s : State) : Host.Outcome State Fault Refusal :=
  conclude (storeBinary .mul (fun a b => checked s (a * b)) x y d s)

end Sys2Proof.Machine
end

