-- ==== Sys2Proof/Machine/Flags.lean ====
section
/-! DEFINITION. The CORE has no flags or condition codes (spec/10_state.md R26). What stands in their place: the results 1 or 0
that LT and EQ write to memory, and the tests of JT and JF. -/

namespace Sys2Proof.Machine

/-- LT's result (44_compare.md R130): exactly 1 or 0, signed. -/
def lessThanResult (a b : Int) : Int := if a < b then 1 else 0

/-- EQ's result (44_compare.md R131): exactly 1 or 0. -/
def equalsResult (a b : Int) : Int := if a = b then 1 else 0

/-- JT's test (43_jumps.md R120): every non-zero condition, negative ones included. -/
def isTrue (c : Int) : Bool := decide (c ≠ 0)

/-- JF's test (43_jumps.md R121): only zero. -/
def isFalse (c : Int) : Bool := decide (c = 0)

end Sys2Proof.Machine
end

