-- ==== Sys2Proof/Machine/Compare.lean ====
section
/-! DEFINITION. LT and EQ (spec/44_compare.md). -/

namespace Sys2Proof.Machine

/-- LT (R130). -/
def execLt (x y d : Arg) (s : State) : Host.Outcome State Fault Refusal :=
  conclude (storeBinary .lt (fun a b => .ok (lessThanResult a b)) x y d s)

/-- EQ (R131). -/
def execEq (x y d : Arg) (s : State) : Host.Outcome State Fault Refusal :=
  conclude (storeBinary .eq (fun a b => .ok (equalsResult a b)) x y d s)

end Sys2Proof.Machine
end

