-- ==== Sys2Proof/Machine/Halt.lean ====
section
/-! DEFINITION. HLT (spec/40_engine.md R83). -/

namespace Sys2Proof.Machine

/-- HLT (R83): the status becomes Halted, `ip` is not advanced, nothing else changes. -/
def execHlt (s : State) : Host.Outcome State Fault Refusal :=
  .next (s.withStatus .halted)

end Sys2Proof.Machine
end

