-- ==== Sys2Proof/Machine/InputOutput.lean ====
section
/-! DEFINITION. IN and OUT (spec/42_io.md). -/

namespace Sys2Proof.Machine

/-- IN (R110): take the head of the queue before the destination is resolved, then write it. -/
def execIn (d : Arg) (s : State) : Host.Outcome State Fault Refusal :=
  conclude do
    let next ← advance s .inp
    let vq ← takeInput s
    let t ← writeBack s next d vq.1
    return t.withInq vq.2

/-- OUT (R111): append the value to the output stream. -/
def execOut (x : Arg) (s : State) : Host.Outcome State Fault Refusal :=
  conclude do
    let next ← advance s .out
    let v ← rd s x
    return (s.withIp next).withOut (s.out ++ [v])

end Sys2Proof.Machine
end

