-- ==== Sys2Proof/Machine/Jump.lean ====
section
/-! DEFINITION. JT and JF (spec/43_jumps.md). A taken jump writes any target; the next fetch checks it (R122). -/

namespace Sys2Proof.Machine

/-- JT (R120). -/
def execJt (x y : Arg) (s : State) : Host.Outcome State Fault Refusal :=
  conclude (jumpIf .jt isTrue x y s)

/-- JF (R121). -/
def execJf (x y : Arg) (s : State) : Host.Outcome State Fault Refusal :=
  conclude (jumpIf .jf isFalse x y s)

end Sys2Proof.Machine
end

