-- ==== Sys2Proof/Machine/RelativeBase.lean ====
section
/-! DEFINITION. ARB (spec/45_relative_base.md). -/

namespace Sys2Proof.Machine

/-- ARB (R140): a Relative operand uses the `rb` from before the instruction. -/
def execArb (x : Arg) (s : State) : Host.Outcome State Fault Refusal :=
  conclude do
    let next ← advance s .arb
    let a ← rd s x
    let r ← checked s (s.rb + a)
    return (s.withIp next).withRb r

end Sys2Proof.Machine
end

