-- ==== Sys2Proof/Machine/Dispatch.lean ====
section
/-! DEFINITION. The meaning of every instruction, one arm per constructor of `Instr`. -/

namespace Sys2Proof.Machine

def exec (i : Instr) (s : State) : Host.Outcome State Fault Refusal :=
  match i with
  | .add x y d => Sys2Proof.Machine.execAdd x y d s
  | .mul x y d => Sys2Proof.Machine.execMul x y d s
  | .inp d => Sys2Proof.Machine.execIn d s
  | .out x => Sys2Proof.Machine.execOut x s
  | .jt x y => Sys2Proof.Machine.execJt x y s
  | .jf x y => Sys2Proof.Machine.execJf x y s
  | .lt x y d => Sys2Proof.Machine.execLt x y d s
  | .eq x y d => Sys2Proof.Machine.execEq x y d s
  | .arb x => Sys2Proof.Machine.execArb x s
  | .hlt => Sys2Proof.Machine.execHlt s

end Sys2Proof.Machine
end

