-- ==== Sys2Proof/Machine/Fetch.lean ====
section
/-! DEFINITION. Fetch and decode of one step (spec/40_engine.md R81, R82, R84), and placing a table word for the host. -/

namespace Sys2Proof.Machine

/-- Argument cell `k` of the instruction at `ip` (R84, 30_encoding.md R68). -/
def State.argCell (s : State) (k : Nat) : Int := s.mem.cell (s.ip.toNat + k)

/-- The instruction at `ip`, decoded afresh from the current memory (R81, R82, R84), or the fault of its fetch. -/
def fetch (s : State) : Except Fault Instr :=
  if s.ip < 0 then .error (.addressFault s.ip .fetch s.ip none)
  else match decode s.params s.label s.argCell with
    | .ok i => .ok i
    | .error e => .error (decodeErrorFault s.ip e)

/-- The state in which the next step fetches the given cells: they are stored at `ip` and the engine is Running; a negative
`ip`, where nothing can be stored, becomes 0 (log entry 13). -/
def State.placeAtIp (s : State) (cells : List Int) : State :=
  let ip := if s.ip < 0 then 0 else s.ip
  ((s.withIp ip).withMem (s.mem.place ip.toNat cells)).withStatus .running

end Sys2Proof.Machine
end

