-- ==== Sys2Proof/Machine/Step.lean ====
section
/-! DEFINITION. One step (spec/40_engine.md R91). R80's four outcomes are read from it by `stepResult` (Machine/Drive.lean). -/

namespace Sys2Proof.Machine

/-- `Step(s)` (R91): a Halted or Faulted engine answers the same again (R96); otherwise fetch, decode and execute. -/
def step (s : State) : Host.Outcome State Fault Refusal :=
  match s.status with
  | .halted => .next s
  | .faulted f => .fault f
  | .running =>
    match fetch s with
    | .error f => .fault f
    | .ok i => exec i s

/-- The state with a table word stored where `step` fetches its next instruction (log entries 12, 13). -/
def State.withFetchWord (s : State) (nbits w : Nat) : State :=
  s.placeAtIp (tableCells nbits w)

end Sys2Proof.Machine
end

