-- ==== Sys2Proof/Machine/Boot.lean ====
section
/-! DEFINITION. Construction of an engine and presenting input (spec/70_reset_and_hazards.md R180, R181; 40_engine.md R98). -/

namespace Sys2Proof.Machine

/-- The first value outside WORD_RANGE, if any (R181). -/
def firstOutOfRange (p : Params) : List Int → Option Int
  | [] => none
  | v :: t => if p.inRange v = true then firstOutOfRange p t else some v

/-- The state `Construct(P)` yields (R180, 10_state.md R32). -/
def constructed (p : Params) (image : List Int) : State where
  ip := 0
  rb := 0
  mem := Memory.ofImage image
  status := .running
  inq := []
  out := []
  params := p

/-- Construction (R180): an image with a value outside WORD_RANGE is refused, never truncated or wrapped (R181). -/
def construct (p : Params) (image : List Int) : Except Refusal State :=
  match firstOutOfRange p image with
  | some v => .error (.imageOutOfRange v)
  | none => .ok (constructed p image)

/-- The host sets the whole input queue at the start of a call (40_engine.md R98); a value outside WORD_RANGE is refused (R181). -/
def presentInput (s : State) (inputs : List Int) : Except Refusal State :=
  match firstOutOfRange s.params inputs with
  | some v => .error (.inputOutOfRange v)
  | none => .ok (s.withInq inputs)

end Sys2Proof.Machine
end

