-- ==== Sys2Proof/Machine/Drive.lean ====
section
/-! DEFINITION. The four outcomes of a step (spec/40_engine.md R80) and the two driving modes (R94, R95), under fuel (R97). -/

namespace Sys2Proof.Machine

/-- The outcomes of R80. `refused` is the host interface's third outcome; no step of this model answers it. -/
inductive StepResult where
  | next (s : State)
  | output (v : Int) (s : State)
  | halted (s : State)
  | fault (f : Fault) (s : State)
  | refused (r : Refusal)
deriving DecidableEq, Repr

/-- R80's outcome of a step, read from `step`: Halted shows in the status, an output in the output stream, and a fault leaves
the state of the step's start with the status Faulted (R90). Log entry 6. -/
def stepResult (s : State) : StepResult :=
  match step s with
  | .fault f => .fault f (takeFault s f)
  | .refused r => .refused r
  | .next t =>
    match t.status with
    | .halted => .halted t
    | _ =>
      match t.out.drop s.out.length with
      | v :: _ => .output v t
      | [] => .next t

/-- What a driving-mode call answers (R94, R95). `outOfFuel` is no end of the run and says nothing of the program (R97);
`refused` is a launch refusal (70_reset_and_hazards.md R181). -/
inductive CallResult where
  | completed (outputs : List Int) (s : State)
  | value (v : Int) (s : State)
  | done (s : State)
  | failed (f : Fault) (s : State)
  | outOfFuel (s : State)
  | refused (r : Refusal)
deriving DecidableEq, Repr

/-- The loop of RunToCompletion (R94), at most `fuel` steps. -/
def completionLoop : Nat → State → CallResult
  | 0, s => .outOfFuel s
  | fuel + 1, s =>
    match stepResult s with
    | .next t => completionLoop fuel t
    | .output _ t => completionLoop fuel t
    | .halted t => .completed t.out t
    | .fault f t => .failed f t
    | .refused r => .refused r

/-- The loop of RunToNextOutput (R95), at most `fuel` steps. -/
def nextOutputLoop : Nat → State → CallResult
  | 0, s => .outOfFuel s
  | fuel + 1, s =>
    match stepResult s with
    | .next t => nextOutputLoop fuel t
    | .output v t => .value v t
    | .halted t => .done t
    | .fault f t => .failed f t
    | .refused r => .refused r

/-- RunToCompletion (R94). -/
def runToCompletion (fuel : Nat) (s : State) (inputs : List Int) : CallResult :=
  match presentInput s inputs with
  | .error r => .refused r
  | .ok t => completionLoop fuel t

/-- RunToNextOutput (R95). -/
def runToNextOutput (fuel : Nat) (s : State) (inputs : List Int) : CallResult :=
  match presentInput s inputs with
  | .error r => .refused r
  | .ok t => nextOutputLoop fuel t

end Sys2Proof.Machine
end

