-- ==== Sys2Proof/Safety.lean ====
section
/-! DEFINITION. The terms claims are stated in: operand resolution read off the spec as relations, the effect of a store, the
machine's invariant, and what counts as a safe run (no fault, spec/60_exceptions.md R159). -/

namespace Sys2Proof.Machine

/-- Read argument `x` resolves to `v` without a fault (40_engine.md R86, 45_relative_base.md R141). -/
def Reads (s : State) (x : Arg) (v : Int) : Prop :=
  match x.mode with
  | .immediate => v = x.raw
  | .position => 0 ≤ x.raw ∧ v = s.mem.cell x.raw.toNat
  | .relative =>
    s.params.inRange (s.rb + x.raw) = true ∧ 0 ≤ s.rb + x.raw ∧ v = s.mem.cell (s.rb + x.raw).toNat

/-- Read argument `x` faults with `f` (40_engine.md R86, 60_exceptions.md R153, R154). -/
def ReadFaults (s : State) (x : Arg) (f : Fault) : Prop :=
  match x.mode with
  | .immediate => False
  | .position => x.raw < 0 ∧ f = .addressFault x.raw .read s.ip (some s.label)
  | .relative =>
    (s.params.inRange (s.rb + x.raw) = false ∧ f = .arithmeticOverflow (s.rb + x.raw) s.ip s.label) ∨
    (s.params.inRange (s.rb + x.raw) = true ∧ s.rb + x.raw < 0 ∧
      f = .addressFault (s.rb + x.raw) .read s.ip (some s.label))

/-- Write target `d` resolves to the address `a`, whatever `a` is (40_engine.md R87; Immediate as Position, 30_encoding.md R67). -/
def TargetAddr (s : State) (d : Arg) (a : Int) : Prop :=
  match d.mode with
  | .relative => s.params.inRange (s.rb + d.raw) = true ∧ a = s.rb + d.raw
  | .position => a = d.raw
  | .immediate => a = d.raw

/-- Write target `d` resolves to the cell `a`, and a write there succeeds (40_engine.md R87, 20_memory.md R44). -/
def Targets (s : State) (d : Arg) (a : Nat) : Prop :=
  TargetAddr s d (a : Int) ∧ s.params.belowCapacity a = true

/-- A write through target `d` faults with `f` (20_memory.md R44, R46, 60_exceptions.md R158 items 8 and 9). -/
def WriteFaults (s : State) (d : Arg) (f : Fault) : Prop :=
  (d.mode = .relative ∧ s.params.inRange (s.rb + d.raw) = false ∧
    f = .arithmeticOverflow (s.rb + d.raw) s.ip s.label) ∨
  (∃ a, TargetAddr s d a ∧ a < 0 ∧ f = .addressFault a .write s.ip (some s.label)) ∨
  (∃ a, TargetAddr s d a ∧ 0 ≤ a ∧ s.params.belowCapacity a.toNat = false ∧ f = .capacityFault a s.ip s.label)

/-- Digit `d` of slot `slot` is bad for opcode `op`: the opcode uses the slot, and the digit is 3 to 9 under STRICT_MODE_DIGITS
(30_encoding.md R65) or 1 in the write slot under STRICT_WRITE_IMMEDIATE (R67). Each parameter acts on its own. -/
def BadDigit (p : Params) (op : Opcode) (slot d : Nat) : Prop :=
  slot ≤ op.nargs ∧
    ((p.strictModeDigits = true ∧ 3 ≤ d) ∨ (p.strictWriteImmediate = true ∧ d = 1 ∧ op.writeSlot = some slot))

/-- The advance past `n` cells stays inside WORD_RANGE (40_engine.md R85). -/
def AdvanceFits (s : State) (n : Nat) : Prop := s.params.inRange (s.ip + n) = true

/-- `t` is `s` after storing `v` in cell `a`, with `ip` and the input queue as given and nothing else changed: every other cell
reads as before and the extent grows to hold `a` (20_memory.md R44, R48). -/
structure Stored (s t : State) (ip : Int) (inq : List Int) (a : Nat) (v : Int) : Prop where
  ip_eq : t.ip = ip
  inq_eq : t.inq = inq
  cell_eq : t.mem.cell a = v
  others_eq : ∀ b, b ≠ a → t.mem.cell b = s.mem.cell b
  extent_eq : t.mem.extent = max s.mem.extent (a + 1)
  rb_eq : t.rb = s.rb
  status_eq : t.status = s.status
  out_eq : t.out = s.out
  params_eq : t.params = s.params

/-- The write target of an instruction, if it has a write slot (30_encoding.md R64). -/
def target : Instr → Option Arg
  | .add _ _ d => some d
  | .mul _ _ d => some d
  | .inp d => some d
  | .out _ => none
  | .jt _ _ => none
  | .jf _ _ => none
  | .lt _ _ d => some d
  | .eq _ _ d => some d
  | .arb _ => none
  | .hlt => none

/-- The address instruction `i` stores to in `s`, resolved by the operation the meanings use; none where it has no write slot
or its target does not resolve. -/
def storeAddr (i : Instr) (s : State) : Option Int :=
  match target i with
  | none => none
  | some d =>
    match wa s d with
    | .ok a => some a
    | .error _ => none

/-- The address the next step stores to, if it stores. -/
def stepStoreAddr (s : State) : Option Int :=
  match s.status, fetch s with
  | .running, .ok i => storeAddr i s
  | _, _ => none

/-- The states an engine built from `image` comes through, over its driving-mode calls, while no step stores to cell `a`: its
construction, the presenting of input, a step that stores elsewhere or nowhere, and the taking of a fault (20_memory.md R47,
40_engine.md R98). -/
inductive NeverStored (p : Params) (image : List Int) (a : Nat) : State → Prop where
  | built (s : State) : construct p image = .ok s → NeverStored p image a s
  | presented (s t : State) (inputs : List Int) : NeverStored p image a s → presentInput s inputs = .ok t → NeverStored p image a t
  | stepped (s t : State) : NeverStored p image a s → stepStoreAddr s ≠ some (a : Int) → step s = .next t → NeverStored p image a t
  | faulted (s : State) (f : Fault) : NeverStored p image a s → step s = .fault f → NeverStored p image a (takeFault s f)

/-- The machine's invariant: the parameters are ones the source admits, memory is canonical, and every value held anywhere is in
WORD_RANGE (10_state.md R22, R25, 20_memory.md R40, 42_io.md R112). -/
def State.inv (s : State) : Bool :=
  s.params.wf && s.mem.wf && s.params.inRange s.ip && s.params.inRange s.rb &&
    s.mem.cells.all (fun c => s.params.inRange c.2) &&
    s.inq.all s.params.inRange && s.out.all s.params.inRange

/-- The memory fits the capacity (20_memory.md R46). -/
def State.fitsCapacity (s : State) : Bool :=
  match s.params.memCapacity with
  | .unbounded => true
  | .finite c => decide (s.mem.extent ≤ c)

/-- Two states that differ at most in the hidden extent and in how memory is listed: every cell reads the same
(10_state.md R29, 20_memory.md R48). -/
structure SameVisible (s t : State) : Prop where
  ip_eq : s.ip = t.ip
  rb_eq : s.rb = t.rb
  cell_eq : ∀ a, s.mem.cell a = t.mem.cell a
  status_eq : s.status = t.status
  inq_eq : s.inq = t.inq
  out_eq : s.out = t.out
  params_eq : s.params = t.params

/-- Two outcomes that no program and no host can tell apart: the same fault, the same refusal, or next states that read the same. -/
def SameOutcome : Host.Outcome State Fault Refusal → Host.Outcome State Fault Refusal → Prop
  | .next s, .next t => SameVisible s t
  | .fault f, .fault g => f = g
  | .refused r, .refused q => r = q
  | _, _ => False

/-- A safe run: the first `n` steps raise no fault. -/
def safeFor : Nat → State → Bool
  | 0, _ => true
  | n + 1, s =>
    match step s with
    | .next t => safeFor n t
    | _ => false

end Sys2Proof.Machine
end

