-- ==== Sys2Proof/Certificates/Slice0/Obligations.lean ====
section
/-! DEFINITION. The statements about the machine, from the numbered rules of spec/. A docstring names the rules a statement
formalises; where a clause rests on a decision the spec marks as its own (D<n> of 92_eei_decisions.md) or on a choice of the
model (a log entry), the docstring says so. -/

open Sys2Proof Sys2Proof.Machine

/-! ### Construction and reset -/

/-- The state after reset is the construction from the empty image and has R32's values for `ip`, `rb`, the status, the queue, the
stream, the extent and the cells. That the image is empty is the model's choice (log entry 5). The word width and the two
strictness parameters are this hardware's values of R6 (decisions D2, D7, D8), which the state carries by the model's choice (log
entry 2); the parameters also hold MEM_CAPACITY unbounded, the model's choice for an OPEN parameter (log entry 4, unsafe). -/
def Obligations.ResetIsConstructionFromEmptyImage : Prop :=
  construct Params.hardware [] = .ok State.reset ∧
    State.reset.ip = 0 ∧ State.reset.rb = 0 ∧ State.reset.status = .running ∧ State.reset.inq = [] ∧ State.reset.out = [] ∧
    State.reset.mem.extent = 0 ∧ (∀ a, State.reset.mem.cell a = 0) ∧ State.reset.params.wordBits = .finite 64 ∧
    State.reset.params.strictModeDigits = false ∧ State.reset.params.strictWriteImmediate = false

/-- What construction from a program image yields (R180), for every image a cell can hold and every parameter. That the state holds
the parameters it was built with (log entry 2) and that the memory is in canonical form (log entries 1, 14) are the model's
choices, which R180 does not state. That construction succeeds and keeps every cell where a finite MEM_CAPACITY lies below the
image's length too is the model's inference (log entry 10, DEDUCED, unsafe). -/
def Obligations.ConstructionYieldsTheResetTable : Prop :=
  ∀ (p : Params) (image : List Int), (∀ v ∈ image, p.inRange v = true) →
    ∃ s, construct p image = .ok s ∧ s.ip = 0 ∧ s.rb = 0 ∧ s.status = .running ∧ s.inq = [] ∧ s.out = [] ∧ s.params = p ∧
      s.mem.extent = image.length ∧ (∀ a, a < image.length → image[a]? = some (s.mem.cell a)) ∧
      (∀ a, image.length ≤ a → s.mem.cell a = 0) ∧ s.mem.wf = true

/-- R181, decision D20: an image or an input sequence with a value outside WORD_RANGE is refused, naming such a value. -/
def Obligations.LaunchRefusesValuesOutsideWordRange : Prop :=
  (∀ (p : Params) (image : List Int), (∃ v ∈ image, p.inRange v = false) →
    ∃ v ∈ image, p.inRange v = false ∧ construct p image = .error (.imageOutOfRange v)) ∧
  (∀ (s : State) (inputs : List Int), (∃ v ∈ inputs, s.params.inRange v = false) →
    ∃ v ∈ inputs, s.params.inRange v = false ∧ presentInput s inputs = .error (.inputOutOfRange v))

/-! ### Memory -/

/-- R43, decision D4 for negative addresses: a read at or beyond the extent answers 0, a read at a negative address faults. -/
def Obligations.ReadsBeyondTheExtentAreZero : Prop :=
  ∀ (s : State) (a : Int),
    (a < 0 → memRead s a = .error (.addressFault a .read s.ip (some s.label))) ∧
    ((s.mem.extent : Int) ≤ a → memRead s a = .ok 0)

/-- R48's round trip: a read after a write to the same cell answers the value written, every other read is unchanged, and the
extent of a canonical memory changes no value. -/
def Obligations.WriteThenReadRoundTrip : Prop :=
  (∀ (s : State) (a v : Int) (m : Memory), memWrite s a v = .ok m →
    memRead (s.withMem m) a = .ok v ∧ ∀ b, 0 ≤ b → b ≠ a → memRead (s.withMem m) b = memRead s b) ∧
  (∀ m m' : Memory, m.wf = true → m'.wf = true → m.cells = m'.cells → ∀ a, m.cell a = m'.cell a)

/-- R44, R45, R46, decisions D3 and D4: a write checks the address and the capacity before any change, and otherwise succeeds,
growing the memory to hold the cell. -/
def Obligations.WritesCheckAddressThenCapacity : Prop :=
  ∀ (s : State) (a v : Int),
    (a < 0 → memWrite s a v = .error (.addressFault a .write s.ip (some s.label))) ∧
    (0 ≤ a → s.params.belowCapacity a.toNat = false → memWrite s a v = .error (.capacityFault a s.ip s.label)) ∧
    (0 ≤ a → s.params.belowCapacity a.toNat = true →
      ∃ m, memWrite s a v = .ok m ∧ m.extent = max s.mem.extent (a.toNat + 1))

/-- R42: at construction the extent is the image's length, and no operation decreases it. -/
def Obligations.ExtentNeverShrinks : Prop :=
  (∀ (p : Params) (image : List Int) (s : State), construct p image = .ok s → s.mem.extent = image.length) ∧
  (∀ s t : State, step s = .next t → s.mem.extent ≤ t.mem.extent) ∧
  (∀ (s : State) (a v : Int) (m : Memory), memWrite s a v = .ok m → s.mem.extent ≤ m.extent) ∧
  (∀ (s : State) (f : Fault), (takeFault s f).mem.extent = s.mem.extent) ∧
  (∀ (s t : State) (inputs : List Int), presentInput s inputs = .ok t → t.mem.extent = s.mem.extent)

/-- R47: however an engine is driven from its construction, a cell outside the image that no step has stored to reads 0. -/
def Obligations.NeverWrittenCellsReadZero : Prop :=
  ∀ (p : Params) (image : List Int) (a : Nat) (s : State), NeverStored p image a s → image.length ≤ a →
    memRead s (a : Int) = .ok 0

/-! ### Encoding -/

/-- R61, R68, R74: decoding the assembled cells of a well-formed instruction gives it back, and the rest of the cells, under
every setting of the parameters. -/
def Obligations.DecodeEncodeRoundTrip : Prop :=
  ∀ (p : Params) (i : Instr) (rest : List Int), i.wf p = true → decodeCells p (encode i ++ rest) = .ok (i, rest)

/-- R62 (decision D5), R63 (recovered by the spec), R71: exactly the negative labels and those whose lowest two digits are 0 or
10 to 98 are Unknown. -/
def Obligations.UnknownLabelsAreExactlyTheUndefinedOnes : Prop :=
  ∀ (p : Params) (L : Int), decodeLabel p L = .error (.unknown L) ↔
    L < 0 ∨ L.toNat % 100 = 0 ∨ (10 ≤ L.toNat % 100 ∧ L.toNat % 100 ≤ 98)

/-- R61, R63, R65, R66, R67 (decisions D6 to D9), for a label with no bad digit under the parameters: its decimal fields select the
opcode and the mode of each used slot; an unused slot is Position, an admitted digit 3 to 9 is Position, higher digits are ignored.
With both strictness parameters false no digit is bad. -/
def Obligations.LabelFieldsSelectOpcodeAndModes : Prop :=
  ∀ (p : Params) (op : Opcode) (A B C rest : Nat), A < 10 → B < 10 → C < 10 →
    ¬ BadDigit p op 1 A → ¬ BadDigit p op 2 B → ¬ BadDigit p op 3 C →
    ∃ h, decodeLabel p ((op.number + 100 * A + 1000 * B + 10000 * C + 100000 * rest : Nat) : Int) = .ok h ∧ h.op = op ∧
      (1 ≤ op.nargs → h.m1 = (if A = 1 then .immediate else if A = 2 then .relative else .position)) ∧
      (2 ≤ op.nargs → h.m2 = (if B = 1 then .immediate else if B = 2 then .relative else .position)) ∧
      (3 ≤ op.nargs → h.m3 = (if C = 1 then .immediate else if C = 2 then .relative else .position)) ∧
      (op.nargs < 1 → h.m1 = .position) ∧ (op.nargs < 2 → h.m2 = .position) ∧ (op.nargs < 3 → h.m3 = .position)

/-- R65, R67, R70, decisions D7, D8 and D13: under every setting of the two strictness parameters, each on its own, the first used
slot with a bad digit is reported, and a label with none decodes. -/
def Obligations.StrictnessReportsTheFirstBadSlot : Prop :=
  ∀ (p : Params) (op : Opcode) (A B C rest : Nat), A < 10 → B < 10 → C < 10 →
    let L := op.number + 100 * A + 1000 * B + 10000 * C + 100000 * rest
    (BadDigit p op 1 A → decodeLabel p (L : Int) = .error (.invalidMode L 1 A)) ∧
    (¬ BadDigit p op 1 A → BadDigit p op 2 B → decodeLabel p (L : Int) = .error (.invalidMode L 2 B)) ∧
    (¬ BadDigit p op 1 A → ¬ BadDigit p op 2 B → BadDigit p op 3 C → decodeLabel p (L : Int) = .error (.invalidMode L 3 C)) ∧
    (¬ BadDigit p op 1 A → ¬ BadDigit p op 2 B → ¬ BadDigit p op 3 C → ∃ h, decodeLabel p (L : Int) = .ok h ∧ h.op = op)

/-- R74: "The assembler emits the smallest label": no smaller label decodes to the instruction, with any arguments. -/
def Obligations.AssemblerEmitsTheSmallestLabel : Prop :=
  ∀ (p : Params) (L : Int) (arg : Nat → Int) (i : Instr), decode p L arg = .ok i → i.label ≤ L

/-- R72: the length comes from the lowest two digits of the label alone, under every parameter, mode digit and argument. -/
def Obligations.LengthComesFromTheOpcodeDigitsAlone : Prop :=
  (∀ (p p' : Params) (L L' : Int) (arg arg' : Nat → Int) (i i' : Instr), decode p L arg = .ok i → decode p' L' arg' = .ok i' →
    L.toNat % 100 = L'.toNat % 100 → i.length = i'.length) ∧
  (∀ (p : Params) (L : Int) (arg : Nat → Int) (i : Instr), decode p L arg = .ok i → ∃ h, decodeLabel p L = .ok h ∧
    i.length = h.op.length)

/-- R60: an instruction is 1 to 4 consecutive cells at `ip`: the label, and then the arguments in slot order. -/
def Obligations.ArgumentsFollowTheLabel : Prop :=
  ∀ (s : State) (i : Instr), fetch s = .ok i →
    1 ≤ i.length ∧ i.length ≤ 4 ∧ i.args.length + 1 = i.length ∧
    (∃ h, decodeLabel s.params (s.mem.cell s.ip.toNat) = .ok h ∧ h.op = i.opcode) ∧
    ∀ k, k < i.args.length → i.args[k]? = some (s.mem.cell (s.ip.toNat + 1 + k))

/-- Words of the spec's own examples (30_encoding.md R66, R74; 95_test_vectors.md section 2.1) under any parameters: no digit of
theirs is bad. -/
def Obligations.SampleWordsDecode : Prop :=
  ∀ p : Params,
    decodeLabel p 1002 = .ok ⟨.mul, .position, .immediate, .position⟩ ∧
    decodeLabel p 21107 = .ok ⟨.lt, .immediate, .immediate, .relative⟩ ∧
    decodeLabel p 2105 = .ok ⟨.jt, .immediate, .relative, .position⟩ ∧
    decodeLabel p 1104 = .ok ⟨.out, .immediate, .position, .position⟩ ∧
    decodeLabel p 203 = .ok ⟨.inp, .relative, .position, .position⟩ ∧
    decodeLabel p 209 = .ok ⟨.arb, .relative, .position, .position⟩ ∧
    decodeLabel p 20199 = .ok ⟨.hlt, .position, .position, .position⟩ ∧
    decodeCells p [21001, 9, 1, 2] = .ok (.add ⟨.position, 9⟩ ⟨.immediate, 1⟩ ⟨.relative, 2⟩, []) ∧
    decodeCells p [1006, 101, 0] = .ok (.jf ⟨.position, 101⟩ ⟨.immediate, 0⟩, []) ∧
    decodeCells p [1008, 100, 16, 101] = .ok (.eq ⟨.position, 100⟩ ⟨.immediate, 16⟩ ⟨.position, 101⟩, [])

/-! ### The step -/

/-- R91: when the cells at `ip` of a running engine decode, the step is the decoded instruction's meaning at that same state;
the step adds nothing around it. -/
def Obligations.StepRunsTheDecodedInstruction : Prop :=
  ∀ (s : State) (i : Instr), s.status = .running → 0 ≤ s.ip →
    decode s.params (s.mem.cell s.ip.toNat) (fun k => s.mem.cell (s.ip.toNat + k)) = .ok i → step s = exec i s

/-- R80, R159: a step has no outcome but a next state or a fault; it is never a refusal. -/
def Obligations.StepNeverRefuses : Prop :=
  ∀ (s : State) (r : Refusal), step s ≠ .refused r

/-- R30: the whole life of `status`: Running from construction, Halted by HLT alone, Faulted by a fault, both terminal (R96, decision
D16). That a fault leaves everything but the status as it was is R90 (decision D11); the state after it is read through
`stepResult` (log entry 6). -/
def Obligations.StatusLifecycle : Prop :=
  (∀ (p : Params) (image : List Int) (s : State), construct p image = .ok s → s.status = .running) ∧
  (∀ s : State, s.status = .running → fetch s = .ok .hlt → stepResult s = .halted { s with status := .halted }) ∧
  (∀ (s : State) (f : Fault), s.status = .running → step s = .fault f → stepResult s = .fault f { s with status := .faulted f }) ∧
  (∀ s t : State, s.status = .running → step s = .next t → t.status ≠ .running → t.status = .halted ∧ fetch s = .ok .hlt) ∧
  (∀ s : State, s.status = .halted → stepResult s = .halted s) ∧
  (∀ (s : State) (f : Fault), s.status = .faulted f → stepResult s = .fault f s)

/-- R23: where `ip` stands when a step of a running engine ends: at the label for HLT, past the instruction for every other
non-jump and for a jump not taken, at the target for a taken jump. -/
def Obligations.IpAfterAStep : Prop :=
  ∀ (s t : State) (i : Instr), s.status = .running → fetch s = .ok i → step s = .next t →
    match i with
    | .hlt => t.ip = s.ip
    | .jt x y => ∃ c g, Reads s x c ∧ Reads s y g ∧ t.ip = if c ≠ 0 then g else s.ip + 3
    | .jf x y => ∃ c g, Reads s x c ∧ Reads s y g ∧ t.ip = if c = 0 then g else s.ip + 3
    | _ => t.ip = s.ip + i.length

/-- R89 (the spec derives it): a step writes at most one of a memory cell, `rb`, and `ip` beyond the advance. -/
def Obligations.OneEffectPerStep : Prop :=
  ∀ (s t : State) (i : Instr), s.status = .running → fetch s = .ok i → step s = .next t →
    (t.mem ≠ s.mem → t.rb = s.rb ∧ t.ip = s.ip + i.length) ∧
    (t.rb ≠ s.rb → t.mem = s.mem ∧ t.ip = s.ip + i.length) ∧
    (t.ip ≠ s.ip + i.length → t.mem = s.mem ∧ t.rb = s.rb)

/-- R25: only ARB writes `rb`; every other step leaves it. -/
def Obligations.OnlyArbWritesTheRelativeBase : Prop :=
  ∀ s t : State, step s = .next t → t.rb ≠ s.rb →
    s.status = .running ∧ ∃ x a, fetch s = .ok (.arb x) ∧ Reads s x a ∧ t.rb = s.rb + a

/-- R112: only IN removes a value from the input queue, one per IN executed, head first; it is empty at construction (R180, R32) and
keeps to WORD_RANGE; the host sets it at the start of each driving-mode call (R98, decision D15), and a value outside WORD_RANGE is
refused when it is presented (R181, decision D20). The driving modes take fuel (log entry 11), and that they set the queue of a
Halted or Faulted engine too is log entry 17. -/
def Obligations.InputQueueIsConsumedByInAlone : Prop :=
  (∀ s t : State, step s = .next t → s.status = .running → ∀ d, fetch s = .ok (.inp d) →
    ∃ v c, s.inq = v :: t.inq ∧ Targets s d c ∧ t.mem.cell c = v) ∧
  (∀ s t : State, step s = .next t → (∀ d, fetch s ≠ .ok (.inp d)) → t.inq = s.inq) ∧
  (∀ (p : Params) (image : List Int) (s : State), construct p image = .ok s → s.inq = []) ∧
  (∀ s t : State, step s = .next t → (∀ v ∈ s.inq, s.params.inRange v = true) → ∀ v ∈ t.inq, t.params.inRange v = true) ∧
  (∀ (s : State) (inputs : List Int), (∀ v ∈ inputs, s.params.inRange v = true) →
    presentInput s inputs = .ok { s with inq := inputs }) ∧
  (∀ (s : State) (inputs : List Int), (∃ v ∈ inputs, s.params.inRange v = false) →
    ∃ v, presentInput s inputs = .error (.inputOutOfRange v)) ∧
  (∀ (n : Nat) (s : State) (inputs : List Int), (∀ v ∈ inputs, s.params.inRange v = true) →
    runToCompletion n s inputs = completionLoop n { s with inq := inputs } ∧
    runToNextOutput n s inputs = nextOutputLoop n { s with inq := inputs })

/-- R113: the output stream records every value OUT emits, in emission order, and nothing else writes it. -/
def Obligations.OutputStreamRecordsOutAlone : Prop :=
  (∀ s t : State, step s = .next t → s.status = .running → ∀ x, fetch s = .ok (.out x) →
    ∃ v, Reads s x v ∧ t.out = s.out ++ [v] ∧ stepResult s = .output v t) ∧
  (∀ s t : State, step s = .next t → (∀ x, fetch s ≠ .ok (.out x)) → t.out = s.out)

/-- R27 (the spec derives it): the parameters are fixed when the engine is built. The state carries them by the model's choice
(log entry 2). -/
def Obligations.StepsKeepTheParameters : Prop :=
  ∀ s t : State, step s = .next t → t.params = s.params

/-! ### What each instruction does -/

/-- ADD (R100): the exact sum goes to the destination cell, `ip` to label + 4, nothing else changes. -/
def Obligations.AddStoresTheSum : Prop :=
  ∀ (s : State) (x y d : Arg) (a b : Int) (c : Nat), AdvanceFits s 4 → Reads s x a → Reads s y b →
    s.params.inRange (a + b) = true → Targets s d c →
    ∃ t, exec (.add x y d) s = .next t ∧ Stored s t (s.ip + 4) s.inq c (a + b)

/-- MUL (R101): the exact product goes to the destination cell, `ip` to label + 4, nothing else changes. -/
def Obligations.MulStoresTheProduct : Prop :=
  ∀ (s : State) (x y d : Arg) (a b : Int) (c : Nat), AdvanceFits s 4 → Reads s x a → Reads s y b →
    s.params.inRange (a * b) = true → Targets s d c →
    ∃ t, exec (.mul x y d) s = .next t ∧ Stored s t (s.ip + 4) s.inq c (a * b)

/-- IN (R110): the head of the queue goes to the destination cell and leaves the queue, `ip` to label + 2. -/
def Obligations.InStoresTheHeadOfTheQueue : Prop :=
  ∀ (s : State) (d : Arg) (v : Int) (q : List Int) (c : Nat), AdvanceFits s 2 → s.inq = v :: q → Targets s d c →
    ∃ t, exec (.inp d) s = .next t ∧ Stored s t (s.ip + 2) q c v

/-- OUT (R111): the value is appended to the output stream, `ip` to label + 2, nothing else changes. -/
def Obligations.OutAppendsTheValue : Prop :=
  ∀ (s : State) (x : Arg) (v : Int), AdvanceFits s 2 → Reads s x v →
    exec (.out x) s = .next { s with ip := s.ip + 2, out := s.out ++ [v] }

/-- JT (R120, decision D10: both operands are resolved): `ip` to the target for every non-zero condition, else to label + 3. -/
def Obligations.JtJumpsOnNonZero : Prop :=
  ∀ (s : State) (x y : Arg) (c g : Int), AdvanceFits s 3 → Reads s x c → Reads s y g →
    exec (.jt x y) s = .next { s with ip := if c = 0 then s.ip + 3 else g }

/-- JF (R121, decision D10: both operands are resolved): `ip` to the target for the condition 0 alone, else to label + 3. -/
def Obligations.JfJumpsOnZero : Prop :=
  ∀ (s : State) (x y : Arg) (c g : Int), AdvanceFits s 3 → Reads s x c → Reads s y g →
    exec (.jf x y) s = .next { s with ip := if c = 0 then g else s.ip + 3 }

/-- LT (R130): exactly 1 or 0 by signed comparison, slot 1 less than slot 2, `ip` to label + 4. -/
def Obligations.LtStoresTheSignedComparison : Prop :=
  ∀ (s : State) (x y d : Arg) (a b : Int) (c : Nat), AdvanceFits s 4 → Reads s x a → Reads s y b → Targets s d c →
    ∃ t, exec (.lt x y d) s = .next t ∧ Stored s t (s.ip + 4) s.inq c (if a < b then 1 else 0)

/-- EQ (R131): exactly 1 or 0 by integer equality, `ip` to label + 4. -/
def Obligations.EqStoresTheEquality : Prop :=
  ∀ (s : State) (x y d : Arg) (a b : Int) (c : Nat), AdvanceFits s 4 → Reads s x a → Reads s y b → Targets s d c →
    ∃ t, exec (.eq x y d) s = .next t ∧ Stored s t (s.ip + 4) s.inq c (if a = b then 1 else 0)

/-- ARB (R140): the operand, read with the old `rb`, is added to `rb`, `ip` to label + 2, nothing else changes. -/
def Obligations.ArbAddsToTheRelativeBase : Prop :=
  ∀ (s : State) (x : Arg) (a : Int), AdvanceFits s 2 → Reads s x a → s.params.inRange (s.rb + a) = true →
    exec (.arb x) s = .next { s with ip := s.ip + 2, rb := s.rb + a }

/-- HLT (R83): the status becomes Halted and nothing else changes, `ip` included; every non-negative label whose lowest two
digits are 99 is HLT, whatever its other digits. -/
def Obligations.HltHaltsWithoutAdvancing : Prop :=
  (∀ s : State, exec .hlt s = .next { s with status := .halted }) ∧
  (∀ s : State, s.status = .running → 0 ≤ s.ip → 0 ≤ s.mem.cell s.ip.toNat → (s.mem.cell s.ip.toNat).toNat % 100 = 99 →
    step s = .next { s with status := .halted })

/-- R141: Relative addressing, for a read argument and for a write target. -/
def Obligations.RelativeAddressing : Prop :=
  (∀ (p : Params) (L i : Nat) (op : Opcode), i ≤ op.nargs → digit L (i + 1) = 2 → slotMode p L op i = .ok .relative) ∧
  (∀ (s : State) (raw : Int), s.params.inRange (s.rb + raw) = true → 0 ≤ s.rb + raw →
    rd s ⟨.relative, raw⟩ = .ok (s.mem.cell (s.rb + raw).toNat)) ∧
  (∀ (s : State) (raw : Int), s.params.inRange (s.rb + raw) = true → wa s ⟨.relative, raw⟩ = .ok (s.rb + raw)) ∧
  (∀ (s : State) (raw : Int), s.params.inRange (s.rb + raw) = false →
    rd s ⟨.relative, raw⟩ = .error (.arithmeticOverflow (s.rb + raw) s.ip s.label) ∧
    wa s ⟨.relative, raw⟩ = .error (.arithmeticOverflow (s.rb + raw) s.ip s.label)) ∧
  (∀ (s : State) (raw : Int), s.params.inRange (s.rb + raw) = true → (s.mem.extent : Int) ≤ s.rb + raw →
    rd s ⟨.relative, raw⟩ = .ok 0) ∧
  (∀ (s : State) (raw v : Int) (m : Memory), wa s ⟨.relative, raw⟩ = .ok (s.rb + raw) → memWrite s (s.rb + raw) v = .ok m →
    s.rb + raw < m.extent) ∧
  (∀ (s : State) (raw : Int), s.params.inRange (s.rb + raw) = true → s.rb + raw < 0 →
    rd s ⟨.relative, raw⟩ = .error (.addressFault (s.rb + raw) .read s.ip (some s.label)) ∧
    ∀ v, memWrite s (s.rb + raw) v = .error (.addressFault (s.rb + raw) .write s.ip (some s.label)))

/-! ### Faults -/

/-- R151: DecodeFault is raised exactly when the label at `ip` has no opcode, with that label and `ip`; a fetch at or beyond the
extent reports label 0. -/
def Obligations.DecodeFaultExactlyOnUnknownLabels : Prop :=
  (∀ s : State, s.status = .running → 0 ≤ s.ip →
    ((∃ j L, step s = .fault (.decodeFault j L)) ↔
      s.label < 0 ∨ s.label.toNat % 100 = 0 ∨ (10 ≤ s.label.toNat % 100 ∧ s.label.toNat % 100 ≤ 98))) ∧
  (∀ (s : State) (j L : Int), s.status = .running → step s = .fault (.decodeFault j L) → j = s.ip ∧ L = s.label) ∧
  (∀ s : State, s.status = .running → (s.mem.extent : Int) ≤ s.ip → step s = .fault (.decodeFault s.ip 0))

/-- R152: InputUnderflow is raised by an IN executed when the queue is empty, and by nothing else a step of a running engine does,
fetch and decode included, with `ip` and the label. (An advance outside WORD_RANGE is reported first, R158 and decision D13.) -/
def Obligations.InputUnderflowExactlyOnEmptyQueue : Prop :=
  (∀ (s : State) (d : Arg), AdvanceFits s 2 → s.inq = [] → exec (.inp d) s = .fault (.inputUnderflow s.ip s.label)) ∧
  (∀ (s : State) (d : Arg), s.status = .running → fetch s = .ok (.inp d) → AdvanceFits s 2 → s.inq = [] →
    step s = .fault (.inputUnderflow s.ip s.label)) ∧
  (∀ (s : State) (i : Instr) (j L : Int), exec i s = .fault (.inputUnderflow j L) →
    s.inq = [] ∧ j = s.ip ∧ L = s.label ∧ ∃ d, i = .inp d) ∧
  (∀ (s : State) (j L : Int), s.status = .running → step s = .fault (.inputUnderflow j L) →
    s.inq = [] ∧ j = s.ip ∧ L = s.label ∧ ∃ d, fetch s = .ok (.inp d))

/-- R153: AddressFault is raised by every access to a negative address (fetch, read, write) and by no access to another address;
the record holds the address, the access kind, `ip`, and the label but for a fetch. -/
def Obligations.AddressFaultExactlyOnNegativeAddresses : Prop :=
  (∀ s : State, s.status = .running → s.ip < 0 → step s = .fault (.addressFault s.ip .fetch s.ip none)) ∧
  (∀ (s : State) (a : Int), a < 0 → memRead s a = .error (.addressFault a .read s.ip (some s.label))) ∧
  (∀ (s : State) (a v : Int), a < 0 → memWrite s a v = .error (.addressFault a .write s.ip (some s.label))) ∧
  (∀ (s : State) (a j : Int) (k : Access) (l : Option Int), s.status = .running → step s = .fault (.addressFault a k j l) →
    a < 0 ∧ j = s.ip ∧ ((k = .fetch ∧ l = none ∧ a = s.ip) ∨ (k ≠ .fetch ∧ l = some s.label)))

/-- R154, R102, decision D2: a sum, a product or a new `rb` outside WORD_RANGE faults with the exact value; it never wraps. -/
def Obligations.ResultsOutsideWordRangeFault : Prop :=
  (∀ (s : State) (x y d : Arg) (a b : Int), AdvanceFits s 4 → Reads s x a → Reads s y b → s.params.inRange (a + b) = false →
    exec (.add x y d) s = .fault (.arithmeticOverflow (a + b) s.ip s.label)) ∧
  (∀ (s : State) (x y d : Arg) (a b : Int), AdvanceFits s 4 → Reads s x a → Reads s y b → s.params.inRange (a * b) = false →
    exec (.mul x y d) s = .fault (.arithmeticOverflow (a * b) s.ip s.label)) ∧
  (∀ (s : State) (x : Arg) (a : Int), AdvanceFits s 2 → Reads s x a → s.params.inRange (s.rb + a) = false →
    exec (.arb x) s = .fault (.arithmeticOverflow (s.rb + a) s.ip s.label))

/-- R85, R158, decisions D2 and D13: an advance outside WORD_RANGE faults before any operand is looked at; HLT does not advance. -/
def Obligations.AdvanceOutsideWordRangeFaultsFirst : Prop :=
  ∀ (s : State) (i : Instr), i ≠ .hlt → ¬ AdvanceFits s i.length →
    exec i s = .fault (.arithmeticOverflow (s.ip + i.length) s.ip s.label)

/-- R86, R88, R158, decision D13: a fault of the first read argument is the instruction's fault. -/
def Obligations.FirstReadFaultIsReported : Prop :=
  ∀ (s : State) (i : Instr) (x y d : Arg) (f : Fault),
    i ∈ [Instr.add x y d, .mul x y d, .lt x y d, .eq x y d, .out x, .jt x y, .jf x y, .arb x] →
    AdvanceFits s i.length → ReadFaults s x f → exec i s = .fault f

/-- R86, R88, R158, decisions D10 and D13: a fault of the second read argument is the instruction's fault, for a jump that would
not be taken as well. -/
def Obligations.SecondReadFaultIsReported : Prop :=
  ∀ (s : State) (i : Instr) (x y d : Arg) (a : Int) (f : Fault),
    i ∈ [Instr.add x y d, .mul x y d, .lt x y d, .eq x y d, .jt x y, .jf x y] →
    AdvanceFits s i.length → Reads s x a → ReadFaults s y f → exec i s = .fault f

/-- R87, R88, R158, decisions D3 and D13: a fault of the destination is reported after the result has been computed or taken. -/
def Obligations.DestinationFaultIsReportedLast : Prop :=
  (∀ (s : State) (i : Instr) (x y d : Arg) (a b : Int) (f : Fault),
    (i = .lt x y d ∨ i = .eq x y d ∨ (i = .add x y d ∧ s.params.inRange (a + b) = true) ∨
      (i = .mul x y d ∧ s.params.inRange (a * b) = true)) →
    AdvanceFits s 4 → Reads s x a → Reads s y b → WriteFaults s d f → exec i s = .fault f) ∧
  (∀ (s : State) (d : Arg) (f : Fault), AdvanceFits s 2 → s.inq ≠ [] → WriteFaults s d f → exec (.inp d) s = .fault f)

/-- R156 (decisions D7, D8; the order of the slots is R70 and decision D13): a step of a running engine raises InvalidMode exactly
where the label at `ip` has an opcode and a bad digit in a slot it uses, and reports the first such slot, its digit, `ip` and the
label; with both strictness parameters false it never does. -/
def Obligations.InvalidModeExactlyOnBadDigits : Prop :=
  (∀ (s : State) (L : Int) (slot d : Nat), s.status = .running → 0 ≤ s.ip →
    decodeLabel s.params s.label = .error (.invalidMode L slot d) → step s = .fault (.invalidMode slot d s.ip s.label)) ∧
  (∀ (s : State) (op : Opcode) (slot : Nat), s.status = .running → 0 ≤ s.ip → 0 ≤ s.label →
    s.label.toNat % 100 = op.number → 1 ≤ slot → BadDigit s.params op slot (digit s.label.toNat (slot + 1)) →
    (∀ k, 1 ≤ k → k < slot → ¬ BadDigit s.params op k (digit s.label.toNat (k + 1))) →
    step s = .fault (.invalidMode slot (digit s.label.toNat (slot + 1)) s.ip s.label)) ∧
  (∀ (s : State) (slot d : Nat) (j L : Int), s.status = .running → step s = .fault (.invalidMode slot d j L) →
    0 ≤ s.ip ∧ 0 ≤ s.label ∧ j = s.ip ∧ L = s.label ∧ 1 ≤ slot ∧ d = digit s.label.toNat (slot + 1) ∧
      ∃ op : Opcode, s.label.toNat % 100 = op.number ∧ BadDigit s.params op slot d ∧
        ∀ k, 1 ≤ k → k < slot → ¬ BadDigit s.params op k (digit s.label.toNat (k + 1))) ∧
  (∀ (s : State) (slot d : Nat) (j L : Int), s.status = .running → s.params.strictModeDigits = false →
    s.params.strictWriteImmediate = false → step s ≠ .fault (.invalidMode slot d j L))

/-- R90, R150, R157, decisions D11 and D12: the record of a fault of a running engine's step names the `ip` of that step and its label
(none for a fetch at a negative `ip` alone), and each fault has its own code and detail: a negative address and the access kind, a
value outside WORD_RANGE, an address at or above the capacity, or the slot and the digit. (The access kind of a CapacityFault is
log entry 7.) -/
def Obligations.FaultRecordNamesTheInstruction : Prop :=
  ∀ (s : State) (f : Fault), s.status = .running → step s = .fault f →
    f.record.ip = s.ip ∧ f.record.label = (if s.ip < 0 then none else some s.label) ∧ f.code = f.record.code ∧
    match f with
    | .decodeFault _ _ => f.record.code = 1 ∧ f.record.detail = .nothing
    | .inputUnderflow _ _ => f.record.code = 2 ∧ f.record.detail = .nothing
    | .addressFault a k _ _ => f.record.code = 3 ∧ f.record.detail = .address a k ∧ a < 0
    | .arithmeticOverflow v _ _ => f.record.code = 4 ∧ f.record.detail = .value v ∧ s.params.inRange v = false
    | .capacityFault a _ _ =>
      f.record.code = 5 ∧ f.record.detail = .address a .write ∧ 0 ≤ a ∧ s.params.belowCapacity a.toNat = false
    | .invalidMode slot d _ _ => f.record.code = 6 ∧ f.record.detail = .slotDigit slot d ∧ d = digit s.label.toNat (slot + 1)

/-! ### Frames -/

/-- ADD, MUL, LT, EQ (R89, R100, R101, R130, R131): when one gives a next state, every cell but the one its target resolves to reads
as before, and the registers and ports are unchanged but for `ip`. -/
def Obligations.BinaryStoreFrame : Prop :=
  ∀ (s t : State) (i : Instr) (x y d : Arg) (a : Int), i ∈ [Instr.add x y d, .mul x y d, .lt x y d, .eq x y d] →
    exec i s = .next t → wa s d = .ok a →
    (∀ b : Nat, (b : Int) ≠ a → t.mem.cell b = s.mem.cell b) ∧
    t.rb = s.rb ∧ t.status = s.status ∧ t.inq = s.inq ∧ t.out = s.out ∧ t.params = s.params

/-- IN (R89, R110): as the stores, but for the one value taken from the queue. -/
def Obligations.InFrame : Prop :=
  ∀ (s t : State) (d : Arg) (a : Int), exec (.inp d) s = .next t → wa s d = .ok a →
    (∀ b : Nat, (b : Int) ≠ a → t.mem.cell b = s.mem.cell b) ∧
    t.rb = s.rb ∧ t.status = s.status ∧ s.inq.tail = t.inq ∧ t.out = s.out ∧ t.params = s.params

/-- OUT, JT, JF, ARB, HLT (R89, R111, R120, R121, R140, R83): no byte of memory and not the extent changes; OUT alone changes the output,
ARB alone `rb`, HLT alone the status. -/
def Obligations.NonStoringFrame : Prop :=
  ∀ (s t : State) (i : Instr) (x y : Arg), i ∈ [Instr.out x, .jt x y, .jf x y, .arb x, .hlt] → exec i s = .next t →
    t.mem = s.mem ∧ (∀ b : Nat, t.mem.cell b = s.mem.cell b) ∧ t.inq = s.inq ∧ t.params = s.params ∧
    (i ≠ .arb x → t.rb = s.rb) ∧ (i ≠ .out x → t.out = s.out) ∧ (i ≠ .hlt → t.status = s.status)

/-- R48, R50, R89: a step changes no cell but the one it stores to. -/
def Obligations.StepsChangeOnlyTheStoredCell : Prop :=
  ∀ (s t : State) (b : Nat), step s = .next t → stepStoreAddr s ≠ some (b : Int) → t.mem.cell b = s.mem.cell b

/-! ### Invariants -/

/-- The invariant (R22, R25, R40, R112: every value held is in WORD_RANGE; memory is canonical; R7: the parameters are admitted) is kept by
every step, from every state that has it. R7's lower bound on the width is log entry 9. -/
def Obligations.StepKeepsTheInvariant : Prop :=
  ∀ s t : State, s.inv = true → step s = .next t → t.inv = true

/-- The invariant holds after reset, and after every construction under admitted parameters. -/
def Obligations.InvariantHoldsAtConstruction : Prop :=
  State.reset.inv = true ∧
  (∀ (p : Params) (image : List Int) (s : State), p.wf = true → construct p image = .ok s → s.inv = true)

/-- R46, decision D3: a memory that fits the capacity keeps fitting it. -/
def Obligations.StepKeepsMemoryWithinCapacity : Prop :=
  ∀ s t : State, s.fitsCapacity = true → step s = .next t → t.fitsCapacity = true

/-- R29, R48: the hidden extent, and how memory is listed, decide no value and no fault: states that read the same step alike. -/
def Obligations.ExtentIsUnobservable : Prop :=
  ∀ s t : State, SameVisible s t → SameOutcome (step s) (step t)

/-! ### Driving modes -/

/-- R95: a call that returns a value returns at the first output: the value is the last of the stream, which grew by it alone since
the call's start, and the engine is not halted or faulted. -/
def Obligations.NextOutputReturnsAtTheFirstOutput : Prop :=
  ∀ (fuel : Nat) (s t : State) (inputs : List Int) (v : Int), runToNextOutput fuel s inputs = .value v t →
    t.out = s.out ++ [v] ∧ t.status = .running

/-- R95: resuming the state a call returned continues exactly where the OUT left off: with the steps the call used, the whole run
is the run from the returned state. -/
def Obligations.ResumingContinuesTheRun : Prop :=
  ∀ (n : Nat) (s t : State) (v : Int), nextOutputLoop n s = .value v t →
    ∃ k, 0 < k ∧ k ≤ n ∧ ∀ m, completionLoop (k + m) s = completionLoop m t

/-- R94, R95: a call that returns no value ends as run-to-completion ends, with no output on the way. -/
def Obligations.NextOutputEndsAsCompletion : Prop :=
  ∀ (n : Nat) (s t : State),
    (nextOutputLoop n s = .done t → completionLoop n s = .completed t.out t ∧ t.out = s.out ∧ t.status = .halted) ∧
    (∀ f, nextOutputLoop n s = .failed f t → completionLoop n s = .failed f t ∧ t.out = s.out ∧ t.status = .faulted f)

/-- R97, decision D21: running out of fuel says nothing: a run that ended within some fuel ends the same with more. -/
def Obligations.MoreFuelChangesNoEnd : Prop :=
  ∀ (n m : Nat) (s t : State) (outs : List Int) (f : Fault),
    (completionLoop n s = .completed outs t → completionLoop (n + m) s = .completed outs t ∧ outs = t.out ∧ t.status = .halted) ∧
    (completionLoop n s = .failed f t → completionLoop (n + m) s = .failed f t ∧ t.status = .faulted f)

/-- R159, R160: a run that is safe never fails, and a fault is never cleared: a call on a faulted engine fails with that same fault
and leaves every register and the memory as they were. -/
def Obligations.FaultsEndTheRun : Prop :=
  (∀ (n : Nat) (s t : State) (f : Fault), safeFor n s = true → completionLoop n s ≠ .failed f t) ∧
  (∀ (n : Nat) (s : State) (f : Fault) (inputs : List Int), s.status = .faulted f → (∀ v ∈ inputs, s.params.inRange v = true) →
    runToCompletion (n + 1) s inputs = .failed f { s with inq := inputs } ∧
    runToNextOutput (n + 1) s inputs = .failed f { s with inq := inputs })
end

