-- ==== Sys2Proof/Laws/Memory.lean ====
section
/-! SUPPORT. The laws of memory: a read after a write, every other cell unchanged, the extent, and that every memory operation
keeps the canonical form (spec/20_memory.md R42 to R48). None but the canonical form assumes the canonical form. -/

namespace Sys2Proof.Machine

theorem lookup_filter_of_keep {l : List (Nat × Int)} {keep : Nat × Int → Bool} {b : Nat}
    (h : ∀ w, keep (b, w) = true) : lookup (l.filter keep) b = lookup l b := by
  induction l with
  | nil => rfl
  | cons c t ih =>
    obtain ⟨k, w⟩ := c
    by_cases hk : k = b
    · subst hk; simp [lookup, h]
    · by_cases hc : keep (k, w) = true
      · simp [lookup, hc, hk, ih]
      · simp [lookup, hc, hk, ih]

theorem lookup_filter_of_drop {l : List (Nat × Int)} {keep : Nat × Int → Bool} {b : Nat}
    (h : ∀ w, keep (b, w) = false) : lookup (l.filter keep) b = 0 := by
  induction l with
  | nil => rfl
  | cons c t ih =>
    obtain ⟨k, w⟩ := c
    by_cases hk : k = b
    · subst hk; simp [h, ih]
    · by_cases hc : keep (k, w) = true
      · simp [lookup, hc, hk, ih]
      · simp [hc, ih]

theorem lookup_insertCell_same {l : List (Nat × Int)} {a : Nat} {v : Int}
    (h : ∀ c ∈ l, c.1 ≠ a) : lookup (insertCell a v l) a = v := by
  induction l with
  | nil => simp [insertCell, lookup]
  | cons c t ih =>
    obtain ⟨k, w⟩ := c
    have hk : k ≠ a := h (k, w) (by simp)
    by_cases hlt : a < k
    · simp [insertCell, hlt, lookup]
    · simpa [insertCell, hlt, lookup, hk] using ih (fun c hc => h c (List.mem_cons_of_mem _ hc))

theorem lookup_insertCell_other {l : List (Nat × Int)} {a b : Nat} {v : Int} (h : b ≠ a) :
    lookup (insertCell a v l) b = lookup l b := by
  induction l with
  | nil => simp [insertCell, lookup, Ne.symm h]
  | cons c t ih =>
    obtain ⟨k, w⟩ := c
    by_cases hlt : a < k
    · simp [insertCell, hlt, lookup, Ne.symm h]
    · simp [insertCell, hlt, lookup, ih]

theorem lookup_setCell_same (l : List (Nat × Int)) (a : Nat) (v : Int) : lookup (setCell l a v) a = v := by
  unfold setCell
  by_cases hv : v = 0
  · simp only [hv, if_true]
    exact lookup_filter_of_drop (by simp)
  · simp only [hv, if_false]
    exact lookup_insertCell_same (by simp)

theorem lookup_setCell_other (l : List (Nat × Int)) {a b : Nat} (v : Int) (h : b ≠ a) :
    lookup (setCell l a v) b = lookup l b := by
  have hf : lookup (l.filter (fun c => decide (c.1 ≠ a))) b = lookup l b :=
    lookup_filter_of_keep (by simp [h])
  unfold setCell
  by_cases hv : v = 0
  · simpa only [hv, if_true] using hf
  · simp only [hv, if_false]
    rw [lookup_insertCell_other h, hf]

/-- The extent after a write (R42, R44): it grows just enough to hold the cell, and never shrinks. -/
@[simp] theorem Memory.store_extent (m : Memory) (a : Nat) (v : Int) :
    (m.store a v).extent = max m.extent (a + 1) := by
  by_cases h : m.extent ≤ a
  · simp [Memory.store, h]; omega
  · simp [Memory.store, h]; omega

/-- A read after a write to the same cell (R48). -/
@[simp] theorem Memory.cell_store_same (m : Memory) (a : Nat) (v : Int) : (m.store a v).cell a = v := by
  have hx : ¬ (m.store a v).extent ≤ a := by rw [Memory.store_extent]; omega
  rw [Memory.cell, if_neg hx]
  by_cases h : m.extent ≤ a
  · simp [Memory.store, h, lookup_setCell_same]
  · simp [Memory.store, h, lookup_setCell_same]

/-- A write leaves every other cell's value unchanged (R48), the zero-filled gap included. -/
theorem Memory.cell_store_other (m : Memory) {a b : Nat} (v : Int) (h : b ≠ a) :
    (m.store a v).cell b = m.cell b := by
  by_cases hx : m.extent ≤ a
  · by_cases hb : b < m.extent
    · have h1 : ¬ a + 1 ≤ b := by omega
      simp only [Memory.cell, Memory.store, hx, if_true, h1, if_false, Nat.not_le.mpr hb]
      rw [lookup_setCell_other _ _ h]
      exact lookup_filter_of_keep (by simp [hb])
    · simp only [Memory.cell, Memory.store, hx, if_true, Nat.not_lt.mp hb]
      split
      · rfl
      · rw [lookup_setCell_other _ _ h]
        exact lookup_filter_of_drop (by simp; omega)
  · simp only [Memory.cell, Memory.store, hx, if_false]
    rw [lookup_setCell_other _ _ h]

/-! ### The canonical form -/

theorem rising_cons {c : Nat × Int} {l : List (Nat × Int)} :
    rising (c :: l) = true ↔ (∀ d ∈ l, c.1 < d.1) ∧ rising l = true := by
  induction l generalizing c with
  | nil => simp [rising]
  | cons d t ih =>
    simp only [rising, Bool.and_eq_true, decide_eq_true_eq, List.mem_cons, forall_eq_or_imp]
    constructor
    · rintro ⟨h, hr⟩
      exact ⟨⟨h, fun e he => lt_trans h ((ih.mp hr).1 e he)⟩, hr⟩
    · rintro ⟨⟨h, -⟩, hr⟩
      exact ⟨h, hr⟩

theorem rising_filter {l : List (Nat × Int)} (keep : Nat × Int → Bool) (h : rising l = true) :
    rising (l.filter keep) = true := by
  induction l with
  | nil => rfl
  | cons c t ih =>
    obtain ⟨h1, h2⟩ := rising_cons.mp h
    by_cases hc : keep c = true
    · rw [List.filter_cons_of_pos hc]
      exact rising_cons.mpr ⟨fun d hd => h1 d (List.mem_of_mem_filter hd), ih h2⟩
    · rw [List.filter_cons_of_neg hc]
      exact ih h2

theorem mem_insertCell {l : List (Nat × Int)} {a : Nat} {v : Int} {c : Nat × Int} :
    c ∈ insertCell a v l ↔ c = (a, v) ∨ c ∈ l := by
  induction l with
  | nil => simp [insertCell]
  | cons d t ih =>
    obtain ⟨k, w⟩ := d
    by_cases h : a < k
    · simp [insertCell, h]
    · simp [insertCell, h, ih]; tauto

theorem rising_insertCell {l : List (Nat × Int)} {a : Nat} {v : Int} (h : rising l = true)
    (ha : ∀ c ∈ l, c.1 ≠ a) : rising (insertCell a v l) = true := by
  induction l with
  | nil => rfl
  | cons d t ih =>
    obtain ⟨k, w⟩ := d
    obtain ⟨h1, h2⟩ := rising_cons.mp h
    have hk : k ≠ a := ha (k, w) (by simp)
    by_cases hlt : a < k
    · simp only [insertCell, hlt, if_true]
      refine rising_cons.mpr ⟨?_, h⟩
      intro d hd
      rcases List.mem_cons.mp hd with rfl | hd
      · exact hlt
      · exact lt_trans hlt (h1 d hd)
    · simp only [insertCell, hlt, if_false]
      refine rising_cons.mpr ⟨?_, ih h2 (fun c hc => ha c (List.mem_cons_of_mem _ hc))⟩
      intro d hd
      rcases mem_insertCell.mp hd with rfl | hd
      · show k < a; omega
      · exact h1 d hd

theorem mem_setCell {l : List (Nat × Int)} {a : Nat} {v : Int} {c : Nat × Int} (h : c ∈ setCell l a v) :
    (c = (a, v) ∧ v ≠ 0) ∨ c ∈ l := by
  unfold setCell at h
  by_cases hv : v = 0
  · simp only [hv, if_true] at h
    exact .inr (List.mem_of_mem_filter h)
  · simp only [hv, if_false] at h
    rcases mem_insertCell.mp h with h | h
    · exact .inl ⟨h, hv⟩
    · exact .inr (List.mem_of_mem_filter h)

theorem rising_setCell {l : List (Nat × Int)} (a : Nat) (v : Int) (h : rising l = true) :
    rising (setCell l a v) = true := by
  unfold setCell
  by_cases hv : v = 0
  · simpa only [hv, if_true] using rising_filter _ h
  · simp only [hv, if_false]
    exact rising_insertCell (rising_filter _ h) (by simp)

theorem Memory.wf_iff (m : Memory) : m.wf = true ↔
    rising m.cells = true ∧ (∀ c ∈ m.cells, c.2 ≠ 0) ∧ (∀ c ∈ m.cells, c.1 < m.extent) := by
  simp [Memory.wf, List.all_eq_true, and_assoc]

/-- Every listed cell after a write is the written one or was listed before. -/
theorem Memory.mem_store_cells {m : Memory} {a : Nat} {v : Int} {c : Nat × Int} (h : c ∈ (m.store a v).cells) :
    (c = (a, v) ∧ v ≠ 0) ∨ c ∈ m.cells := by
  unfold Memory.store at h
  split at h
  · exact (mem_setCell h).imp id List.mem_of_mem_filter
  · exact mem_setCell h

/-- A write keeps the canonical form. -/
theorem Memory.store_wf {m : Memory} (a : Nat) (v : Int) (h : m.wf = true) : (m.store a v).wf = true := by
  obtain ⟨hr, hz, hx⟩ := (Memory.wf_iff m).mp h
  refine (Memory.wf_iff _).mpr ⟨?_, ?_, ?_⟩
  · unfold Memory.store
    split
    · exact rising_setCell _ _ (rising_filter _ hr)
    · exact rising_setCell _ _ hr
  · intro c hc
    rcases Memory.mem_store_cells hc with ⟨rfl, hv⟩ | hc
    · exact hv
    · exact hz c hc
  · intro c hc
    rw [Memory.store_extent]
    rcases Memory.mem_store_cells hc with ⟨rfl, -⟩ | hc
    · show a < _; omega
    · have := hx c hc; omega

/-- Placing cells keeps the canonical form. -/
theorem Memory.place_wf {m : Memory} (a : Nat) (vs : List Int) (h : m.wf = true) : (m.place a vs).wf = true := by
  induction vs generalizing m a with
  | nil => exact h
  | cons v t ih => exact ih (a + 1) (Memory.store_wf a v h)

theorem imageCells_bounds {base : Nat} {image : List Int} {c : Nat × Int} (h : c ∈ imageCells base image) :
    base ≤ c.1 ∧ c.1 < base + image.length ∧ c.2 ≠ 0 ∧ c.2 ∈ image := by
  induction image generalizing base with
  | nil => simp [imageCells] at h
  | cons v t ih =>
    by_cases hv : v = 0
    · simp only [imageCells, hv, if_true] at h
      obtain ⟨h1, h2, h3, h4⟩ := ih h
      simp only [List.length_cons]
      exact ⟨by omega, by omega, h3, List.mem_cons_of_mem _ h4⟩
    · simp only [imageCells, hv, if_false, List.mem_cons] at h
      simp only [List.length_cons]
      rcases h with rfl | h
      · exact ⟨le_refl _, by show base < _; omega, hv, by simp⟩
      · obtain ⟨h1, h2, h3, h4⟩ := ih h
        exact ⟨by omega, by omega, h3, List.mem_cons_of_mem _ h4⟩

theorem imageCells_rising (base : Nat) (image : List Int) : rising (imageCells base image) = true := by
  induction image generalizing base with
  | nil => rfl
  | cons v t ih =>
    by_cases hv : v = 0
    · simpa only [imageCells, hv, if_true] using ih (base + 1)
    · simp only [imageCells, hv, if_false]
      exact rising_cons.mpr ⟨fun d hd => (imageCells_bounds hd).1, ih (base + 1)⟩

theorem lookup_imageCells (base k : Nat) (image : List Int) :
    lookup (imageCells base image) (base + k) = image.getD k 0 := by
  induction image generalizing base k with
  | nil => simp [imageCells, lookup]
  | cons v t ih =>
    cases k with
    | zero =>
      by_cases hv : v = 0
      · simp only [imageCells, hv, if_true, Nat.add_zero, List.getD_cons_zero]
        have : ∀ l : List (Nat × Int), (∀ c ∈ l, base < c.1) → lookup l base = 0 := by
          intro l hl
          induction l with
          | nil => rfl
          | cons c l ih2 =>
            obtain ⟨k, w⟩ := c
            have := hl (k, w) (by simp)
            have hne : k ≠ base := by simp only at this; omega
            simp only [lookup, hne, if_false]
            exact ih2 (fun c hc => hl c (List.mem_cons_of_mem _ hc))
        exact this _ (fun c hc => (imageCells_bounds hc).1)
      · simp [imageCells, hv, lookup]
    | succ k =>
      have hb : base + (k + 1) = (base + 1) + k := by omega
      by_cases hv : v = 0
      · simp only [imageCells, hv, if_true, List.getD_cons_succ, hb]
        exact ih (base + 1) k
      · have hne : base ≠ (base + 1) + k := by omega
        simp only [imageCells, hv, if_false, lookup, List.getD_cons_succ, hb, hne]
        exact ih (base + 1) k

/-- The cells of a fresh memory are the image, and 0 beyond it (10_state.md R32). -/
theorem Memory.cell_ofImage (image : List Int) (a : Nat) : (Memory.ofImage image).cell a = image.getD a 0 := by
  by_cases h : image.length ≤ a
  · simp [Memory.cell, Memory.ofImage, h]
  · simpa [Memory.cell, Memory.ofImage, h] using lookup_imageCells 0 a image

theorem Memory.ofImage_wf (image : List Int) : (Memory.ofImage image).wf = true := by
  refine (Memory.wf_iff _).mpr ⟨imageCells_rising 0 image, ?_, ?_⟩
  · exact fun c hc => (imageCells_bounds hc).2.2.1
  · intro c hc
    have := (imageCells_bounds hc).2.1
    simpa [Memory.ofImage] using this

theorem State.reset_mem_wf : State.reset.mem.wf = true := by decide

/-- In canonical memory an unlisted or listed cell is read the same whatever the extent (R48). -/
theorem Memory.cell_eq_lookup {m : Memory} (h : m.wf = true) (a : Nat) : m.cell a = lookup m.cells a := by
  obtain ⟨-, -, hx⟩ := (Memory.wf_iff m).mp h
  by_cases ha : m.extent ≤ a
  · rw [Memory.cell, if_pos ha]
    have : ∀ l : List (Nat × Int), (∀ c ∈ l, c.1 < m.extent) → lookup l a = 0 := by
      intro l hl
      induction l with
      | nil => rfl
      | cons c l ih =>
        obtain ⟨k, w⟩ := c
        have := hl (k, w) (by simp)
        have hne : k ≠ a := by simp only at this; omega
        simp only [lookup, hne, if_false]
        exact ih (fun c hc => hl c (List.mem_cons_of_mem _ hc))
    exact (this _ hx).symm
  · rw [Memory.cell, if_neg ha]

/-- A cell reads 0 or a listed value. -/
theorem Memory.cell_zero_or_mem (m : Memory) (a : Nat) : m.cell a = 0 ∨ (a, m.cell a) ∈ m.cells := by
  unfold Memory.cell
  split
  · exact .inl rfl
  · generalize m.cells = l
    induction l with
    | nil => exact .inl rfl
    | cons c t ih =>
      obtain ⟨k, w⟩ := c
      by_cases hk : k = a
      · subst hk; simp [lookup]
      · simp only [lookup, hk, if_false]
        exact ih.imp id (List.mem_cons_of_mem _)

end Sys2Proof.Machine
end

