-- ==== Sys2Proof/Laws/State.lean ====
section
/-! SUPPORT. One lemma per field per update of `State` (Machine/Ops.lean), each true by unfolding once. -/

namespace Sys2Proof.Machine

@[simp] theorem State.withIp_ip (s : State) (v : Int) : (s.withIp v).ip = v := rfl
@[simp] theorem State.withIp_rb (s : State) (v : Int) : (s.withIp v).rb = s.rb := rfl
@[simp] theorem State.withIp_mem (s : State) (v : Int) : (s.withIp v).mem = s.mem := rfl
@[simp] theorem State.withIp_status (s : State) (v : Int) : (s.withIp v).status = s.status := rfl
@[simp] theorem State.withIp_inq (s : State) (v : Int) : (s.withIp v).inq = s.inq := rfl
@[simp] theorem State.withIp_out (s : State) (v : Int) : (s.withIp v).out = s.out := rfl
@[simp] theorem State.withIp_params (s : State) (v : Int) : (s.withIp v).params = s.params := rfl

@[simp] theorem State.withRb_ip (s : State) (v : Int) : (s.withRb v).ip = s.ip := rfl
@[simp] theorem State.withRb_rb (s : State) (v : Int) : (s.withRb v).rb = v := rfl
@[simp] theorem State.withRb_mem (s : State) (v : Int) : (s.withRb v).mem = s.mem := rfl
@[simp] theorem State.withRb_status (s : State) (v : Int) : (s.withRb v).status = s.status := rfl
@[simp] theorem State.withRb_inq (s : State) (v : Int) : (s.withRb v).inq = s.inq := rfl
@[simp] theorem State.withRb_out (s : State) (v : Int) : (s.withRb v).out = s.out := rfl
@[simp] theorem State.withRb_params (s : State) (v : Int) : (s.withRb v).params = s.params := rfl

@[simp] theorem State.withMem_ip (s : State) (m : Memory) : (s.withMem m).ip = s.ip := rfl
@[simp] theorem State.withMem_rb (s : State) (m : Memory) : (s.withMem m).rb = s.rb := rfl
@[simp] theorem State.withMem_mem (s : State) (m : Memory) : (s.withMem m).mem = m := rfl
@[simp] theorem State.withMem_status (s : State) (m : Memory) : (s.withMem m).status = s.status := rfl
@[simp] theorem State.withMem_inq (s : State) (m : Memory) : (s.withMem m).inq = s.inq := rfl
@[simp] theorem State.withMem_out (s : State) (m : Memory) : (s.withMem m).out = s.out := rfl
@[simp] theorem State.withMem_params (s : State) (m : Memory) : (s.withMem m).params = s.params := rfl

@[simp] theorem State.withStatus_ip (s : State) (v : Status) : (s.withStatus v).ip = s.ip := rfl
@[simp] theorem State.withStatus_rb (s : State) (v : Status) : (s.withStatus v).rb = s.rb := rfl
@[simp] theorem State.withStatus_mem (s : State) (v : Status) : (s.withStatus v).mem = s.mem := rfl
@[simp] theorem State.withStatus_status (s : State) (v : Status) : (s.withStatus v).status = v := rfl
@[simp] theorem State.withStatus_inq (s : State) (v : Status) : (s.withStatus v).inq = s.inq := rfl
@[simp] theorem State.withStatus_out (s : State) (v : Status) : (s.withStatus v).out = s.out := rfl
@[simp] theorem State.withStatus_params (s : State) (v : Status) : (s.withStatus v).params = s.params := rfl

@[simp] theorem State.withInq_ip (s : State) (q : List Int) : (s.withInq q).ip = s.ip := rfl
@[simp] theorem State.withInq_rb (s : State) (q : List Int) : (s.withInq q).rb = s.rb := rfl
@[simp] theorem State.withInq_mem (s : State) (q : List Int) : (s.withInq q).mem = s.mem := rfl
@[simp] theorem State.withInq_status (s : State) (q : List Int) : (s.withInq q).status = s.status := rfl
@[simp] theorem State.withInq_inq (s : State) (q : List Int) : (s.withInq q).inq = q := rfl
@[simp] theorem State.withInq_out (s : State) (q : List Int) : (s.withInq q).out = s.out := rfl
@[simp] theorem State.withInq_params (s : State) (q : List Int) : (s.withInq q).params = s.params := rfl

@[simp] theorem State.withOut_ip (s : State) (q : List Int) : (s.withOut q).ip = s.ip := rfl
@[simp] theorem State.withOut_rb (s : State) (q : List Int) : (s.withOut q).rb = s.rb := rfl
@[simp] theorem State.withOut_mem (s : State) (q : List Int) : (s.withOut q).mem = s.mem := rfl
@[simp] theorem State.withOut_status (s : State) (q : List Int) : (s.withOut q).status = s.status := rfl
@[simp] theorem State.withOut_inq (s : State) (q : List Int) : (s.withOut q).inq = s.inq := rfl
@[simp] theorem State.withOut_out (s : State) (q : List Int) : (s.withOut q).out = q := rfl
@[simp] theorem State.withOut_params (s : State) (q : List Int) : (s.withOut q).params = s.params := rfl

@[simp] theorem takeFault_ip (s : State) (f : Fault) : (takeFault s f).ip = s.ip := rfl
@[simp] theorem takeFault_rb (s : State) (f : Fault) : (takeFault s f).rb = s.rb := rfl
@[simp] theorem takeFault_mem (s : State) (f : Fault) : (takeFault s f).mem = s.mem := rfl
@[simp] theorem takeFault_status (s : State) (f : Fault) : (takeFault s f).status = .faulted f := rfl
@[simp] theorem takeFault_inq (s : State) (f : Fault) : (takeFault s f).inq = s.inq := rfl
@[simp] theorem takeFault_out (s : State) (f : Fault) : (takeFault s f).out = s.out := rfl
@[simp] theorem takeFault_params (s : State) (f : Fault) : (takeFault s f).params = s.params := rfl

@[simp] theorem conclude_ok (t : State) : conclude (.ok t) = .next t := rfl
@[simp] theorem conclude_error (f : Fault) : conclude (.error f) = .fault f := rfl

end Sys2Proof.Machine
end

