-- ==== Sys2Proof/Laws/Ops.lean ====
section
/-! SUPPORT. What each shared operation of Machine/Ops.lean can answer, said once. -/

namespace Sys2Proof.Machine

theorem bind_ok_iff {ε α β : Type} {r : Except ε α} {f : α → Except ε β} {b : β} :
    (r >>= f) = .ok b ↔ ∃ a, r = .ok a ∧ f a = .ok b := by
  cases r with
  | error e =>
    constructor
    · intro h; cases h
    · rintro ⟨_, h, _⟩; cases h
  | ok a =>
    constructor
    · exact fun h => ⟨a, rfl, h⟩
    · rintro ⟨_, h, hf⟩; cases h; exact hf

theorem bind_error_iff {ε α β : Type} {r : Except ε α} {f : α → Except ε β} {e : ε} :
    (r >>= f) = .error e ↔ r = .error e ∨ ∃ a, r = .ok a ∧ f a = .error e := by
  cases r with
  | error e' =>
    exact ⟨fun h => .inl (by cases h; rfl), fun h => by
      rcases h with h | ⟨_, h, _⟩
      · cases h; rfl
      · cases h⟩
  | ok a =>
    exact ⟨fun h => .inr ⟨a, rfl, h⟩, fun h => by
      rcases h with h | ⟨_, h, hf⟩
      · cases h
      · cases h; exact hf⟩

theorem pure_ok_iff {ε α : Type} {a b : α} : (pure a : Except ε α) = .ok b ↔ a = b :=
  ⟨fun h => by cases h; rfl, fun h => by rw [h]; rfl⟩

theorem pure_ne_error {ε α : Type} {a : α} {e : ε} : (pure a : Except ε α) ≠ .error e :=
  fun h => by cases h

theorem conclude_next_iff {r : Except Fault State} {t : State} : conclude r = .next t ↔ r = .ok t := by
  cases r <;> simp [conclude]

theorem conclude_fault_iff {r : Except Fault State} {f : Fault} : conclude r = .fault f ↔ r = .error f := by
  cases r <;> simp [conclude]

theorem conclude_ne_refused {r : Except Fault State} {q : Refusal} : conclude r ≠ .refused q := by
  cases r <;> simp [conclude]

/-! ### Each operation: when it answers, and what -/

theorem checked_ok_iff {s : State} {v w : Int} : checked s v = .ok w ↔ s.params.inRange v = true ∧ w = v := by
  unfold checked
  by_cases h : s.params.inRange v = true
  · rw [if_pos h]; simp [h, eq_comm]
  · rw [if_neg h]; simp [h]

theorem checked_error_iff {s : State} {v : Int} {f : Fault} :
    checked s v = .error f ↔ s.params.inRange v = false ∧ f = .arithmeticOverflow v s.ip s.label := by
  unfold checked
  by_cases h : s.params.inRange v = true
  · rw [if_pos h]; simp [h]
  · rw [if_neg h]; simp [h, eq_comm]

theorem memRead_ok_iff {s : State} {a v : Int} : memRead s a = .ok v ↔ 0 ≤ a ∧ v = s.mem.cell a.toNat := by
  unfold memRead
  by_cases h : a < 0
  · rw [if_pos h]; simp [Int.not_le.mpr h]
  · rw [if_neg h]; simp [Int.not_lt.mp h, eq_comm]

theorem memRead_error_iff {s : State} {a : Int} {f : Fault} :
    memRead s a = .error f ↔ a < 0 ∧ f = .addressFault a .read s.ip (some s.label) := by
  unfold memRead
  by_cases h : a < 0
  · rw [if_pos h]; simp [h, eq_comm]
  · rw [if_neg h]; simp [h]

theorem memWrite_ok_iff {s : State} {a v : Int} {m : Memory} : memWrite s a v = .ok m ↔
    0 ≤ a ∧ s.params.belowCapacity a.toNat = true ∧ m = s.mem.store a.toNat v := by
  unfold memWrite
  by_cases h : a < 0
  · rw [if_pos h]; simp [Int.not_le.mpr h]
  · rw [if_neg h]
    by_cases hc : s.params.belowCapacity a.toNat = true
    · rw [if_pos hc]; simp [hc, Int.not_lt.mp h, eq_comm]
    · rw [if_neg hc]; simp [hc]

theorem memWrite_error_iff {s : State} {a v : Int} {f : Fault} : memWrite s a v = .error f ↔
    (a < 0 ∧ f = .addressFault a .write s.ip (some s.label)) ∨
    (0 ≤ a ∧ s.params.belowCapacity a.toNat = false ∧ f = .capacityFault a s.ip s.label) := by
  unfold memWrite
  by_cases h : a < 0
  · rw [if_pos h]
    constructor
    · intro e; cases e; exact .inl ⟨h, rfl⟩
    · rintro (⟨-, rfl⟩ | ⟨h', -⟩)
      · rfl
      · omega
  · rw [if_neg h]
    by_cases hc : s.params.belowCapacity a.toNat = true
    · rw [if_pos hc]; simp [hc, h]
    · rw [if_neg hc]
      constructor
      · intro e; cases e; exact .inr ⟨by omega, by simpa using hc, rfl⟩
      · rintro (⟨h', -⟩ | ⟨-, -, rfl⟩)
        · exact absurd h' h
        · rfl

theorem advance_ok_iff {s : State} {op : Opcode} {v : Int} :
    advance s op = .ok v ↔ s.params.inRange (s.ip + op.length) = true ∧ v = s.ip + op.length :=
  checked_ok_iff

theorem advance_error_iff {s : State} {op : Opcode} {f : Fault} : advance s op = .error f ↔
    s.params.inRange (s.ip + op.length) = false ∧ f = .arithmeticOverflow (s.ip + op.length) s.ip s.label :=
  checked_error_iff

theorem takeInput_ok_iff {s : State} {vq : Int × List Int} : takeInput s = .ok vq ↔ s.inq = vq.1 :: vq.2 := by
  obtain ⟨v, q⟩ := vq
  unfold takeInput
  cases s.inq <;> simp

theorem takeInput_error_iff {s : State} {f : Fault} :
    takeInput s = .error f ↔ s.inq = [] ∧ f = .inputUnderflow s.ip s.label := by
  unfold takeInput
  cases s.inq with
  | nil => exact ⟨fun h => by cases h; exact ⟨rfl, rfl⟩, fun h => by rw [h.2]⟩
  | cons v q => simp

/-! ### WORD_RANGE -/

/-- A value of the 64-bit signed range is a value of every admitted WORD_RANGE (00_scope.md R7). -/
theorem inRange_of_64 {p : Params} (hp : p.wf = true) {v : Int} (h1 : -(2 ^ 63) ≤ v) (h2 : v < 2 ^ 63) :
    p.inRange v = true := by
  unfold Params.wf at hp
  unfold Params.inRange
  cases hw : p.wordBits with
  | unbounded => rfl
  | finite w =>
    rw [hw] at hp
    have hw' : 64 ≤ w := by simpa using hp
    have hpow : (2 : Nat) ^ 63 ≤ 2 ^ (w - 1) := Nat.pow_le_pow_right (by norm_num) (by omega)
    have hpow' : (2 ^ 63 : Int) ≤ ((2 ^ (w - 1) : Nat) : Int) := by exact_mod_cast hpow
    have h3 : wordMin w ≤ v := by unfold wordMin; linarith
    have h4 : v ≤ wordMax w := by unfold wordMax; linarith
    simp [h3, h4]

end Sys2Proof.Machine
end

