-- ==== Sys2Proof/Laws/Boot.lean ====
section
/-! SUPPORT. What construction and presenting input can answer (spec/70_reset_and_hazards.md R180, R181). -/

namespace Sys2Proof.Machine

theorem firstOutOfRange_none_iff {p : Params} {vs : List Int} :
    firstOutOfRange p vs = none ↔ ∀ v ∈ vs, p.inRange v = true := by
  induction vs with
  | nil => simp [firstOutOfRange]
  | cons v t ih =>
    by_cases h : p.inRange v = true
    · simp [firstOutOfRange, h, ih]
    · simp [firstOutOfRange, h]

theorem firstOutOfRange_some {p : Params} {vs : List Int} {v : Int} (h : firstOutOfRange p vs = some v) :
    v ∈ vs ∧ p.inRange v = false := by
  induction vs with
  | nil => cases h
  | cons w t ih =>
    by_cases hw : p.inRange w = true
    · rw [firstOutOfRange, if_pos hw] at h
      exact ⟨List.mem_cons_of_mem _ (ih h).1, (ih h).2⟩
    · rw [firstOutOfRange, if_neg hw] at h
      cases h
      exact ⟨by simp, by simpa using hw⟩

theorem construct_ok_iff {p : Params} {image : List Int} {s : State} :
    construct p image = .ok s ↔ (∀ v ∈ image, p.inRange v = true) ∧ s = constructed p image := by
  unfold construct
  rw [← firstOutOfRange_none_iff]
  cases firstOutOfRange p image <;> simp [eq_comm]

theorem presentInput_ok_iff {s t : State} {inputs : List Int} :
    presentInput s inputs = .ok t ↔ (∀ v ∈ inputs, s.params.inRange v = true) ∧ t = s.withInq inputs := by
  unfold presentInput
  rw [← firstOutOfRange_none_iff]
  cases firstOutOfRange s.params inputs <;> simp [eq_comm]

end Sys2Proof.Machine
end

