-- ==== Sys2Proof/Laws/Decode.lean ====
section
/-! SUPPORT. What the decoder can answer, by parts: the opcode map, one slot, the label. -/

namespace Sys2Proof

theorem opcodeOf_number (op : Opcode) : opcodeOf op.number = some op := by cases op <;> rfl

theorem opcodeOf_eq_some {n : Nat} {op : Opcode} : opcodeOf n = some op ↔ n = op.number := by
  constructor
  · intro h
    unfold opcodeOf at h
    split at h <;> cases h <;> rfl
  · rintro rfl; exact opcodeOf_number op

theorem opcodeOf_eq_none {n : Nat} : opcodeOf n = none ↔ (n = 0 ∨ 9 < n) ∧ n ≠ 99 := by
  constructor
  · intro h
    by_contra hc
    have hn : n = 99 ∨ (1 ≤ n ∧ n ≤ 9) := by omega
    rcases hn with rfl | ⟨h1, h2⟩
    · cases h
    · interval_cases n <;> cases h
  · intro h
    cases ho : opcodeOf n with
    | none => rfl
    | some op =>
      have := opcodeOf_eq_some.mp ho
      cases op <;> simp [Opcode.number] at this <;> omega

theorem Opcode.number_pos (op : Opcode) : 0 < op.number := by cases op <;> decide
theorem Opcode.number_lt (op : Opcode) : op.number < 100 := by cases op <;> decide
theorem Opcode.length_pos (op : Opcode) : 1 ≤ op.length := by cases op <;> decide
theorem Opcode.length_le (op : Opcode) : op.length ≤ 4 := by cases op <;> decide
theorem Mode.digit_lt (m : Mode) : m.digit < 3 := by cases m <;> decide

theorem slotMode_used {p : Params} {L i : Nat} {op : Opcode} (h : i ≤ op.nargs) :
    slotMode p L op i = digitMode p L op i (digit L (i + 1)) := by
  rw [slotMode, if_neg (by omega)]

theorem slotMode_unused {p : Params} {L i : Nat} {op : Opcode} (h : op.nargs < i) :
    slotMode p L op i = .ok .position := by
  rw [slotMode, if_pos h]

/-- The digit the assembler writes for a mode is read back as that mode, unless it is an illegal Immediate target. -/
theorem slotMode_digit {p : Params} {L i : Nat} {op : Opcode} {m : Mode} (h : i ≤ op.nargs)
    (hd : digit L (i + 1) = m.digit)
    (hw : op.writeSlot = some i → p.strictWriteImmediate = true → m ≠ .immediate) :
    slotMode p L op i = .ok m := by
  rw [slotMode_used h, hd]
  cases m with
  | position => rfl
  | relative => rfl
  | immediate =>
    have : ¬ (op.writeSlot = some i ∧ p.strictWriteImmediate = true) := fun ⟨h1, h2⟩ => hw h1 h2 rfl
    simp [digitMode, Mode.digit, this]

open Machine in
/-- A slot is an error exactly where its digit is bad, and the error names the label, the slot and the digit. -/
theorem slotMode_error_iff {p : Params} {L i : Nat} {op : Opcode} {e : DecodeError} : slotMode p L op i = .error e ↔
    BadDigit p op i (digit L (i + 1)) ∧ e = .invalidMode L i (digit L (i + 1)) := by
  unfold slotMode BadDigit
  by_cases hn : op.nargs < i
  · simp [hn]
  · have hi : i ≤ op.nargs := by omega
    rw [if_neg hn]
    rcases digit L (i + 1) with _ | _ | _ | d
    · simp [digitMode]
    · by_cases hw : op.writeSlot = some i ∧ p.strictWriteImmediate = true
      · simp only [digitMode, if_pos hw, Except.error.injEq, @eq_comm _ e]
        exact (and_iff_right ⟨hi, .inr ⟨hw.2, trivial, hw.1⟩⟩).symm
      · simp only [digitMode, if_neg hw, reduceCtorEq, false_iff]
        rintro ⟨⟨-, ⟨-, h⟩ | ⟨h1, -, h2⟩⟩, -⟩
        · omega
        · exact hw ⟨h2, h1⟩
    · simp [digitMode]
    · by_cases hs : p.strictModeDigits = true
      · simp only [digitMode, if_pos hs, Except.error.injEq, @eq_comm _ e]
        exact (and_iff_right ⟨hi, .inl ⟨hs, by omega⟩⟩).symm
      · simp [digitMode, hs]

open Machine in
/-- A slot whose digit is not bad has a mode. -/
theorem slotMode_ok_of_good {p : Params} {L i : Nat} {op : Opcode} (h : ¬ BadDigit p op i (digit L (i + 1))) :
    ∃ m, slotMode p L op i = .ok m := by
  cases e : slotMode p L op i with
  | ok m => exact ⟨m, rfl⟩
  | error d => exact absurd (slotMode_error_iff.mp e).1 h

open Machine in
/-- What a decoded label is (R70). -/
theorem decodeLabel_ok_iff {p : Params} {L : Int} {h : Head} : decodeLabel p L = .ok h ↔
    0 ≤ L ∧ L.toNat % 100 = h.op.number ∧ slotMode p L.toNat h.op 1 = .ok h.m1 ∧
      slotMode p L.toNat h.op 2 = .ok h.m2 ∧ slotMode p L.toNat h.op 3 = .ok h.m3 := by
  unfold decodeLabel
  by_cases hL : L < 0
  · rw [if_pos hL]
    constructor
    · intro h; cases h
    · rintro ⟨h, -⟩; omega
  · rw [if_neg hL]
    cases ho : opcodeOf (L.toNat % 100) with
    | none =>
      constructor
      · intro h; cases h
      · rintro ⟨-, h, -⟩
        rw [h, opcodeOf_number] at ho
        cases ho
    | some op =>
      simp only [bind_ok_iff, pure_ok_iff]
      constructor
      · rintro ⟨m1, h1, m2, h2, m3, h3, rfl⟩
        exact ⟨by omega, opcodeOf_eq_some.mp ho, h1, h2, h3⟩
      · rintro ⟨-, hop, h1, h2, h3⟩
        have : op = h.op := by
          have := opcodeOf_eq_some.mp ho
          rw [hop] at this
          have h' := opcodeOf_number op
          rw [← this, opcodeOf_number] at h'
          exact (Option.some.inj h').symm
        subst this
        exact ⟨_, h1, _, h2, _, h3, rfl⟩

@[simp] theorem Head.instr_opcode (h : Head) (arg : Nat → Int) : (h.instr arg).opcode = h.op := by
  obtain ⟨op, _, _, _⟩ := h
  cases op <;> rfl

open Machine in
theorem decode_ok_iff {p : Params} {L : Int} {arg : Nat → Int} {i : Instr} :
    decode p L arg = .ok i ↔ ∃ h, decodeLabel p L = .ok h ∧ i = h.instr arg := by
  rw [decode, bind_ok_iff]
  simp only [pure_ok_iff, @eq_comm _ i]

open Machine in
theorem decode_error_iff {p : Params} {L : Int} {arg : Nat → Int} {e : DecodeError} :
    decode p L arg = .error e ↔ decodeLabel p L = .error e := by
  rw [decode, bind_error_iff]
  simp [pure_ne_error]

/-- The arguments of a decoded instruction are the argument cells in slot order (R60, R68). -/
theorem Head.instr_args (h : Head) (arg : Nat → Int) :
    (h.instr arg).args = (List.range h.op.nargs).map (fun k => arg (k + 1)) := by
  obtain ⟨op, _, _, _⟩ := h
  cases op <;> rfl

end Sys2Proof
end

