-- ==== Sys2Proof/Laws/Operands.lean ====
section
/-! SUPPORT. Operand resolution against the relations of Safety.lean, and what the shared instruction shapes can answer. -/

namespace Sys2Proof.Machine

theorem relativeAddr_ok_iff {s : State} {raw a : Int} :
    relativeAddr s raw = .ok a ↔ s.params.inRange (s.rb + raw) = true ∧ a = s.rb + raw :=
  checked_ok_iff

theorem rd_ok_iff {s : State} {x : Arg} {v : Int} : rd s x = .ok v ↔ Reads s x v := by
  unfold rd Reads
  cases x.mode with
  | immediate => simp [eq_comm]
  | position => exact memRead_ok_iff
  | relative =>
    simp only [bind_ok_iff, relativeAddr_ok_iff, memRead_ok_iff]
    constructor
    · rintro ⟨a, ⟨h1, rfl⟩, h2, h3⟩; exact ⟨h1, h2, h3⟩
    · rintro ⟨h1, h2, h3⟩; exact ⟨_, ⟨h1, rfl⟩, h2, h3⟩

theorem rd_error_iff {s : State} {x : Arg} {f : Fault} : rd s x = .error f ↔ ReadFaults s x f := by
  unfold rd ReadFaults
  cases x.mode with
  | immediate => simp
  | position => exact memRead_error_iff
  | relative =>
    simp only [bind_error_iff, relativeAddr, checked_error_iff, checked_ok_iff, memRead_error_iff]
    constructor
    · rintro (h | ⟨a, ⟨h1, rfl⟩, h2, h3⟩)
      · exact .inl h
      · exact .inr ⟨h1, h2, h3⟩
    · rintro (h | ⟨h1, h2, h3⟩)
      · exact .inl h
      · exact .inr ⟨_, ⟨h1, rfl⟩, h2, h3⟩

theorem wa_ok_iff {s : State} {d : Arg} {a : Int} : wa s d = .ok a ↔ TargetAddr s d a := by
  unfold wa TargetAddr
  cases d.mode with
  | immediate => simp [eq_comm]
  | position => simp [eq_comm]
  | relative => exact relativeAddr_ok_iff

theorem wa_error_iff {s : State} {d : Arg} {f : Fault} : wa s d = .error f ↔
    d.mode = .relative ∧ s.params.inRange (s.rb + d.raw) = false ∧ f = .arithmeticOverflow (s.rb + d.raw) s.ip s.label := by
  unfold wa
  cases hm : d.mode with
  | immediate => simp
  | position => simp
  | relative => simpa [relativeAddr] using checked_error_iff

theorem writeBack_ok_iff {s t : State} {next : Int} {d : Arg} {v : Int} : writeBack s next d v = .ok t ↔
    ∃ a, Targets s d a ∧ t = (s.withIp next).withMem (s.mem.store a v) := by
  simp only [writeBack, bind_ok_iff, wa_ok_iff, memWrite_ok_iff, pure_ok_iff, Targets]
  constructor
  · rintro ⟨a, h1, m, ⟨h2, h3, rfl⟩, rfl⟩
    exact ⟨a.toNat, ⟨by rwa [Int.toNat_of_nonneg h2], h3⟩, rfl⟩
  · rintro ⟨a, ⟨h1, h2⟩, rfl⟩
    exact ⟨a, h1, _, ⟨by omega, by simpa using h2, rfl⟩, by simp⟩

theorem writeBack_error_iff {s : State} {next : Int} {d : Arg} {v : Int} {f : Fault} :
    writeBack s next d v = .error f ↔ WriteFaults s d f := by
  simp only [writeBack, bind_error_iff, wa_error_iff, wa_ok_iff, memWrite_error_iff, memWrite_ok_iff, WriteFaults]
  constructor
  · rintro (h | ⟨a, h1, (⟨h2, h3⟩ | ⟨h2, h3, h4⟩) | ⟨_, _, h⟩⟩)
    · exact .inl h
    · exact .inr (.inl ⟨a, h1, h2, h3⟩)
    · exact .inr (.inr ⟨a, h1, h2, h3, h4⟩)
    · exact absurd h pure_ne_error
  · rintro (h | ⟨a, h1, h2, h3⟩ | ⟨a, h1, h2, h3, h4⟩)
    · exact .inl h
    · exact .inr ⟨a, h1, .inl (.inl ⟨h2, h3⟩)⟩
    · exact .inr ⟨a, h1, .inl (.inr ⟨h2, h3, h4⟩)⟩

/-- What ADD, MUL, LT and EQ do when they complete. -/
theorem storeBinary_ok_iff {op : Opcode} {result : Int → Int → Except Fault Int} {x y d : Arg} {s t : State} :
    storeBinary op result x y d s = .ok t ↔
      AdvanceFits s op.length ∧ ∃ a b v c, Reads s x a ∧ Reads s y b ∧ result a b = .ok v ∧ Targets s d c ∧
        t = (s.withIp (s.ip + op.length)).withMem (s.mem.store c v) := by
  simp only [storeBinary, bind_ok_iff, advance_ok_iff, rd_ok_iff, writeBack_ok_iff, AdvanceFits]
  constructor
  · rintro ⟨n, ⟨h0, rfl⟩, a, h1, b, h2, v, h3, c, h4, rfl⟩
    exact ⟨h0, a, b, v, c, h1, h2, h3, h4, rfl⟩
  · rintro ⟨h0, a, b, v, c, h1, h2, h3, h4, rfl⟩
    exact ⟨_, ⟨h0, rfl⟩, a, h1, b, h2, v, h3, c, h4, rfl⟩

/-- What ADD, MUL, LT and EQ do when they fault: the first fault in the order of 60_exceptions.md R158. -/
theorem storeBinary_error_iff {op : Opcode} {result : Int → Int → Except Fault Int} {x y d : Arg} {s : State}
    {f : Fault} : storeBinary op result x y d s = .error f ↔
      advance s op = .error f ∨ (AdvanceFits s op.length ∧ (ReadFaults s x f ∨ ∃ a, Reads s x a ∧
        (ReadFaults s y f ∨ ∃ b, Reads s y b ∧ (result a b = .error f ∨ ∃ v, result a b = .ok v ∧ WriteFaults s d f)))) := by
  simp only [storeBinary, bind_error_iff, rd_error_iff, rd_ok_iff, writeBack_error_iff, advance_ok_iff, AdvanceFits]
  constructor
  · rintro (h | ⟨n, ⟨h0, -⟩, h⟩)
    · exact .inl h
    · exact .inr ⟨h0, h⟩
  · rintro (h | ⟨h0, h⟩)
    · exact .inl h
    · exact .inr ⟨_, ⟨h0, rfl⟩, h⟩

/-- What JT and JF do when they complete. -/
theorem jumpIf_ok_iff {op : Opcode} {taken : Int → Bool} {x y : Arg} {s t : State} :
    jumpIf op taken x y s = .ok t ↔
      AdvanceFits s op.length ∧ ∃ c g, Reads s x c ∧ Reads s y g ∧
        t = s.withIp (if taken c = true then g else s.ip + op.length) := by
  simp only [jumpIf, bind_ok_iff, advance_ok_iff, rd_ok_iff, pure_ok_iff, AdvanceFits]
  constructor
  · rintro ⟨n, ⟨h0, rfl⟩, c, h1, g, h2, rfl⟩
    exact ⟨h0, c, g, h1, h2, rfl⟩
  · rintro ⟨h0, c, g, h1, h2, rfl⟩
    exact ⟨_, ⟨h0, rfl⟩, c, h1, g, h2, rfl⟩

/-- What JT and JF do when they fault. -/
theorem jumpIf_error_iff {op : Opcode} {taken : Int → Bool} {x y : Arg} {s : State} {f : Fault} :
    jumpIf op taken x y s = .error f ↔
      advance s op = .error f ∨
        (AdvanceFits s op.length ∧ (ReadFaults s x f ∨ ∃ c, Reads s x c ∧ ReadFaults s y f)) := by
  simp only [jumpIf, bind_error_iff, rd_error_iff, rd_ok_iff, advance_ok_iff, AdvanceFits]
  constructor
  · rintro (h | ⟨n, ⟨h0, -⟩, h | ⟨c, h1, h | ⟨g, -, h⟩⟩⟩)
    · exact .inl h
    · exact .inr ⟨h0, .inl h⟩
    · exact .inr ⟨h0, .inr ⟨c, h1, h⟩⟩
    · exact absurd h pure_ne_error
  · rintro (h | ⟨h0, h | ⟨c, h1, h⟩⟩)
    · exact .inl h
    · exact .inr ⟨_, ⟨h0, rfl⟩, .inl h⟩
    · exact .inr ⟨_, ⟨h0, rfl⟩, .inr ⟨c, h1, .inl h⟩⟩

end Sys2Proof.Machine
end

