-- ==== Sys2Proof/Laws/Exec.lean ====
section
/-! SUPPORT. What each instruction can answer: one inversion lemma per meaning for its next state, and the general facts
about `exec` that follow by one case split. -/

namespace Sys2Proof.Machine

/-- The completion condition and the next state shared by ADD, MUL, LT and EQ. -/
def BinaryStores (s t : State) (x y d : Arg) (result : Int → Int → Int) (fits : Int → Bool) : Prop :=
  AdvanceFits s 4 ∧ ∃ a b c, Reads s x a ∧ Reads s y b ∧ fits (result a b) = true ∧ Targets s d c ∧
    t = (s.withIp (s.ip + 4)).withMem (s.mem.store c (result a b))

theorem execAdd_next_iff {x y d : Arg} {s t : State} :
    execAdd x y d s = .next t ↔ BinaryStores s t x y d (fun a b => a + b) s.params.inRange := by
  simp only [execAdd, conclude_next_iff, storeBinary_ok_iff, checked_ok_iff, BinaryStores]
  constructor
  · rintro ⟨h0, a, b, v, c, h1, h2, ⟨h3, rfl⟩, h4, rfl⟩; exact ⟨h0, a, b, c, h1, h2, h3, h4, rfl⟩
  · rintro ⟨h0, a, b, c, h1, h2, h3, h4, rfl⟩; exact ⟨h0, a, b, _, c, h1, h2, ⟨h3, rfl⟩, h4, rfl⟩

theorem execMul_next_iff {x y d : Arg} {s t : State} :
    execMul x y d s = .next t ↔ BinaryStores s t x y d (fun a b => a * b) s.params.inRange := by
  simp only [execMul, conclude_next_iff, storeBinary_ok_iff, checked_ok_iff, BinaryStores]
  constructor
  · rintro ⟨h0, a, b, v, c, h1, h2, ⟨h3, rfl⟩, h4, rfl⟩; exact ⟨h0, a, b, c, h1, h2, h3, h4, rfl⟩
  · rintro ⟨h0, a, b, c, h1, h2, h3, h4, rfl⟩; exact ⟨h0, a, b, _, c, h1, h2, ⟨h3, rfl⟩, h4, rfl⟩

theorem execLt_next_iff {x y d : Arg} {s t : State} :
    execLt x y d s = .next t ↔ BinaryStores s t x y d lessThanResult (fun _ => true) := by
  simp only [execLt, conclude_next_iff, storeBinary_ok_iff, BinaryStores, Except.ok.injEq]
  constructor
  · rintro ⟨h0, a, b, v, c, h1, h2, rfl, h4, rfl⟩; exact ⟨h0, a, b, c, h1, h2, trivial, h4, rfl⟩
  · rintro ⟨h0, a, b, c, h1, h2, -, h4, rfl⟩; exact ⟨h0, a, b, _, c, h1, h2, rfl, h4, rfl⟩

theorem execEq_next_iff {x y d : Arg} {s t : State} :
    execEq x y d s = .next t ↔ BinaryStores s t x y d equalsResult (fun _ => true) := by
  simp only [execEq, conclude_next_iff, storeBinary_ok_iff, BinaryStores, Except.ok.injEq]
  constructor
  · rintro ⟨h0, a, b, v, c, h1, h2, rfl, h4, rfl⟩; exact ⟨h0, a, b, c, h1, h2, trivial, h4, rfl⟩
  · rintro ⟨h0, a, b, c, h1, h2, -, h4, rfl⟩; exact ⟨h0, a, b, _, c, h1, h2, rfl, h4, rfl⟩

theorem execIn_next_iff {d : Arg} {s t : State} : execIn d s = .next t ↔
    AdvanceFits s 2 ∧ ∃ v q c, s.inq = v :: q ∧ Targets s d c ∧
      t = ((s.withIp (s.ip + 2)).withMem (s.mem.store c v)).withInq q := by
  simp only [execIn, conclude_next_iff, bind_ok_iff, advance_ok_iff, takeInput_ok_iff, writeBack_ok_iff, pure_ok_iff]
  constructor
  · rintro ⟨n, ⟨h0, rfl⟩, vq, h1, u, ⟨c, h2, rfl⟩, rfl⟩; exact ⟨h0, _, _, c, h1, h2, rfl⟩
  · rintro ⟨h0, v, q, c, h1, h2, rfl⟩; exact ⟨_, ⟨h0, rfl⟩, (v, q), h1, _, ⟨c, h2, rfl⟩, rfl⟩

theorem execOut_next_iff {x : Arg} {s t : State} : execOut x s = .next t ↔
    AdvanceFits s 2 ∧ ∃ v, Reads s x v ∧ t = (s.withIp (s.ip + 2)).withOut (s.out ++ [v]) := by
  simp only [execOut, conclude_next_iff, bind_ok_iff, advance_ok_iff, rd_ok_iff, pure_ok_iff]
  constructor
  · rintro ⟨n, ⟨h0, rfl⟩, v, h1, rfl⟩; exact ⟨h0, v, h1, rfl⟩
  · rintro ⟨h0, v, h1, rfl⟩; exact ⟨_, ⟨h0, rfl⟩, v, h1, rfl⟩

theorem execJt_next_iff {x y : Arg} {s t : State} : execJt x y s = .next t ↔
    AdvanceFits s 3 ∧ ∃ c g, Reads s x c ∧ Reads s y g ∧ t = s.withIp (if c ≠ 0 then g else s.ip + 3) := by
  simp [execJt, conclude_next_iff, jumpIf_ok_iff, isTrue, Opcode.length]

theorem execJf_next_iff {x y : Arg} {s t : State} : execJf x y s = .next t ↔
    AdvanceFits s 3 ∧ ∃ c g, Reads s x c ∧ Reads s y g ∧ t = s.withIp (if c = 0 then g else s.ip + 3) := by
  simp [execJf, conclude_next_iff, jumpIf_ok_iff, isFalse, Opcode.length]

theorem execArb_next_iff {x : Arg} {s t : State} : execArb x s = .next t ↔
    AdvanceFits s 2 ∧ ∃ a, Reads s x a ∧ s.params.inRange (s.rb + a) = true ∧
      t = (s.withIp (s.ip + 2)).withRb (s.rb + a) := by
  simp only [execArb, conclude_next_iff, bind_ok_iff, advance_ok_iff, rd_ok_iff, checked_ok_iff, pure_ok_iff]
  constructor
  · rintro ⟨n, ⟨h0, rfl⟩, a, h1, r, ⟨h2, rfl⟩, rfl⟩; exact ⟨h0, a, h1, h2, rfl⟩
  · rintro ⟨h0, a, h1, h2, rfl⟩; exact ⟨_, ⟨h0, rfl⟩, a, h1, _, ⟨h2, rfl⟩, rfl⟩

theorem execHlt_next_iff {s t : State} : exec .hlt s = .next t ↔ t = s.withStatus .halted := by
  simp [exec, execHlt, eq_comm]

/-- How one instruction touches memory: not at all, or one store through its target, and then `rb` stays and `ip` is the
advanced one. -/
theorem exec_next_mem {i : Instr} {s t : State} (h : exec i s = .next t) :
    (t.mem = s.mem ∧ target i = none) ∨ ∃ d c v, target i = some d ∧ Targets s d c ∧ t.mem = s.mem.store c v ∧
      t.rb = s.rb ∧ t.ip = s.ip + i.length := by
  cases i with
  | add x y d => obtain ⟨-, _, _, c, -, -, -, hc, rfl⟩ := execAdd_next_iff.mp h; exact .inr ⟨d, c, _, rfl, hc, rfl, rfl, rfl⟩
  | mul x y d => obtain ⟨-, _, _, c, -, -, -, hc, rfl⟩ := execMul_next_iff.mp h; exact .inr ⟨d, c, _, rfl, hc, rfl, rfl, rfl⟩
  | lt x y d => obtain ⟨-, _, _, c, -, -, -, hc, rfl⟩ := execLt_next_iff.mp h; exact .inr ⟨d, c, _, rfl, hc, rfl, rfl, rfl⟩
  | eq x y d => obtain ⟨-, _, _, c, -, -, -, hc, rfl⟩ := execEq_next_iff.mp h; exact .inr ⟨d, c, _, rfl, hc, rfl, rfl, rfl⟩
  | inp d => obtain ⟨-, _, _, c, -, hc, rfl⟩ := execIn_next_iff.mp h; exact .inr ⟨d, c, _, rfl, hc, rfl, rfl, rfl⟩
  | jt x y => obtain ⟨-, _, _, -, -, rfl⟩ := execJt_next_iff.mp h; exact .inl ⟨rfl, rfl⟩
  | jf x y => obtain ⟨-, _, _, -, -, rfl⟩ := execJf_next_iff.mp h; exact .inl ⟨rfl, rfl⟩
  | arb x => obtain ⟨-, _, -, -, rfl⟩ := execArb_next_iff.mp h; exact .inl ⟨rfl, rfl⟩
  | out x => obtain ⟨-, _, -, rfl⟩ := execOut_next_iff.mp h; exact .inl ⟨rfl, rfl⟩
  | hlt => rw [execHlt_next_iff.mp h]; exact .inl ⟨rfl, rfl⟩

/-- How one instruction touches `rb`: not at all, or it is ARB, and then memory stays and `ip` is the advanced one. -/
theorem exec_next_rb {i : Instr} {s t : State} (h : exec i s = .next t) :
    t.rb = s.rb ∨ ∃ x a, i = .arb x ∧ Reads s x a ∧ t.rb = s.rb + a ∧ t.mem = s.mem ∧ t.ip = s.ip + 2 := by
  cases i with
  | arb x => obtain ⟨-, a, ha, -, rfl⟩ := execArb_next_iff.mp h; exact .inr ⟨x, a, rfl, ha, rfl, rfl, rfl⟩
  | add x y d => obtain ⟨-, _, _, _, -, -, -, -, rfl⟩ := execAdd_next_iff.mp h; exact .inl rfl
  | mul x y d => obtain ⟨-, _, _, _, -, -, -, -, rfl⟩ := execMul_next_iff.mp h; exact .inl rfl
  | lt x y d => obtain ⟨-, _, _, _, -, -, -, -, rfl⟩ := execLt_next_iff.mp h; exact .inl rfl
  | eq x y d => obtain ⟨-, _, _, _, -, -, -, -, rfl⟩ := execEq_next_iff.mp h; exact .inl rfl
  | inp d => obtain ⟨-, _, _, _, -, -, rfl⟩ := execIn_next_iff.mp h; exact .inl rfl
  | jt x y => obtain ⟨-, _, _, -, -, rfl⟩ := execJt_next_iff.mp h; exact .inl rfl
  | jf x y => obtain ⟨-, _, _, -, -, rfl⟩ := execJf_next_iff.mp h; exact .inl rfl
  | out x => obtain ⟨-, _, -, rfl⟩ := execOut_next_iff.mp h; exact .inl rfl
  | hlt => rw [execHlt_next_iff.mp h]; exact .inl rfl

/-- How one instruction touches the input queue: not at all, or it is IN and takes the head. -/
theorem exec_next_inq {i : Instr} {s t : State} (h : exec i s = .next t) :
    (t.inq = s.inq ∧ ∀ d, i ≠ .inp d) ∨
    ∃ d v c, i = .inp d ∧ s.inq = v :: t.inq ∧ Targets s d c ∧ t.mem = s.mem.store c v := by
  cases i with
  | inp d => obtain ⟨-, v, q, c, hq, hc, rfl⟩ := execIn_next_iff.mp h; exact .inr ⟨d, v, c, rfl, hq, hc, rfl⟩
  | add x y d => obtain ⟨-, _, _, _, -, -, -, -, rfl⟩ := execAdd_next_iff.mp h; exact .inl ⟨rfl, by simp⟩
  | mul x y d => obtain ⟨-, _, _, _, -, -, -, -, rfl⟩ := execMul_next_iff.mp h; exact .inl ⟨rfl, by simp⟩
  | lt x y d => obtain ⟨-, _, _, _, -, -, -, -, rfl⟩ := execLt_next_iff.mp h; exact .inl ⟨rfl, by simp⟩
  | eq x y d => obtain ⟨-, _, _, _, -, -, -, -, rfl⟩ := execEq_next_iff.mp h; exact .inl ⟨rfl, by simp⟩
  | jt x y => obtain ⟨-, _, _, -, -, rfl⟩ := execJt_next_iff.mp h; exact .inl ⟨rfl, by simp⟩
  | jf x y => obtain ⟨-, _, _, -, -, rfl⟩ := execJf_next_iff.mp h; exact .inl ⟨rfl, by simp⟩
  | arb x => obtain ⟨-, _, -, -, rfl⟩ := execArb_next_iff.mp h; exact .inl ⟨rfl, by simp⟩
  | out x => obtain ⟨-, _, -, rfl⟩ := execOut_next_iff.mp h; exact .inl ⟨rfl, by simp⟩
  | hlt => rw [execHlt_next_iff.mp h]; exact .inl ⟨rfl, by simp⟩

/-- How one instruction touches the output stream and the status: OUT appends, HLT halts, nothing else does either. -/
theorem exec_next_ports {i : Instr} {s t : State} (h : exec i s = .next t) :
    (t.out = s.out ∧ t.status = s.status ∧ ∀ x, i ≠ .out x) ∨
    (∃ x v, i = .out x ∧ Reads s x v ∧ t.out = s.out ++ [v] ∧ t.status = s.status) ∨
    (i = .hlt ∧ t = s.withStatus .halted) := by
  cases i with
  | add x y d => obtain ⟨-, _, _, _, -, -, -, -, rfl⟩ := execAdd_next_iff.mp h; exact .inl ⟨rfl, rfl, by simp⟩
  | mul x y d => obtain ⟨-, _, _, _, -, -, -, -, rfl⟩ := execMul_next_iff.mp h; exact .inl ⟨rfl, rfl, by simp⟩
  | lt x y d => obtain ⟨-, _, _, _, -, -, -, -, rfl⟩ := execLt_next_iff.mp h; exact .inl ⟨rfl, rfl, by simp⟩
  | eq x y d => obtain ⟨-, _, _, _, -, -, -, -, rfl⟩ := execEq_next_iff.mp h; exact .inl ⟨rfl, rfl, by simp⟩
  | inp d => obtain ⟨-, _, _, _, -, -, rfl⟩ := execIn_next_iff.mp h; exact .inl ⟨rfl, rfl, by simp⟩
  | jt x y => obtain ⟨-, _, _, -, -, rfl⟩ := execJt_next_iff.mp h; exact .inl ⟨rfl, rfl, by simp⟩
  | jf x y => obtain ⟨-, _, _, -, -, rfl⟩ := execJf_next_iff.mp h; exact .inl ⟨rfl, rfl, by simp⟩
  | arb x => obtain ⟨-, _, -, -, rfl⟩ := execArb_next_iff.mp h; exact .inl ⟨rfl, rfl, by simp⟩
  | out x =>
    obtain ⟨-, v, hv, rfl⟩ := execOut_next_iff.mp h
    exact .inr (.inl ⟨x, v, rfl, hv, rfl, rfl⟩)
  | hlt => exact .inr (.inr ⟨rfl, execHlt_next_iff.mp h⟩)

/-- No meaning refuses. -/
theorem exec_ne_refused (i : Instr) (s : State) (r : Refusal) : exec i s ≠ .refused r := by
  cases i
  case hlt => simp [exec, execHlt]
  all_goals exact conclude_ne_refused

/-- A store changes one cell and grows the extent, nothing else: the shape of `Stored`. -/
theorem stored_withMem (s : State) (ip : Int) (a : Nat) (v : Int) :
    Stored s ((s.withIp ip).withMem (s.mem.store a v)) ip s.inq a v :=
  { ip_eq := rfl, inq_eq := rfl, cell_eq := by simp, others_eq := fun b hb => by simpa using Memory.cell_store_other _ _ hb
    extent_eq := by simp, rb_eq := rfl, status_eq := rfl, out_eq := rfl, params_eq := rfl }

end Sys2Proof.Machine
end

