-- ==== Sys2Proof/Laws/Step.lean ====
section
/-! SUPPORT. What one step can answer (spec/40_engine.md R91), said once. -/

namespace Sys2Proof.Machine

theorem fetch_ok_iff {s : State} {i : Instr} :
    fetch s = .ok i ↔ 0 ≤ s.ip ∧ decode s.params s.label s.argCell = .ok i := by
  unfold fetch
  by_cases h : s.ip < 0
  · rw [if_pos h]
    constructor
    · intro e; cases e
    · rintro ⟨h', -⟩; omega
  · rw [if_neg h]
    cases decode s.params s.label s.argCell with
    | ok j => simp [Int.not_lt.mp h]
    | error e => simp

theorem fetch_error_iff {s : State} {f : Fault} : fetch s = .error f ↔
    (s.ip < 0 ∧ f = .addressFault s.ip .fetch s.ip none) ∨
    (0 ≤ s.ip ∧ ∃ e, decode s.params s.label s.argCell = .error e ∧ f = decodeErrorFault s.ip e) := by
  unfold fetch
  by_cases h : s.ip < 0
  · rw [if_pos h]
    constructor
    · intro e; cases e; exact .inl ⟨h, rfl⟩
    · rintro (⟨-, rfl⟩ | ⟨h', -⟩)
      · rfl
      · omega
  · rw [if_neg h]
    cases decode s.params s.label s.argCell with
    | ok j => simp [h]
    | error e =>
      constructor
      · intro e'; cases e'; exact .inr ⟨by omega, e, rfl, rfl⟩
      · rintro (⟨h', -⟩ | ⟨-, e', h', rfl⟩)
        · exact absurd h' h
        · cases h'; rfl

/-- A next state comes from a halted engine, unchanged, or from the fetched instruction. -/
theorem step_next_iff {s t : State} : step s = .next t ↔
    (s.status = .halted ∧ t = s) ∨ (s.status = .running ∧ ∃ i, fetch s = .ok i ∧ exec i s = .next t) := by
  unfold step
  cases hs : s.status with
  | halted => simp [eq_comm]
  | faulted f => simp
  | running =>
    cases hf : fetch s with
    | error f => simp
    | ok i => simp

/-- A fault comes from a faulted engine, from the fetch, or from the fetched instruction. -/
theorem step_fault_iff {s : State} {f : Fault} : step s = .fault f ↔
    s.status = .faulted f ∨ (s.status = .running ∧
      (fetch s = .error f ∨ ∃ i, fetch s = .ok i ∧ exec i s = .fault f)) := by
  unfold step
  cases hs : s.status with
  | halted => simp
  | faulted g => simp
  | running =>
    cases hf : fetch s with
    | error g => simp
    | ok i => simp

/-- One more step of a run (Host/Core.lean). -/
theorem core_run_succ_next_iff {n : Nat} {s t : State} : Host.Core.run Sys2Proof.core (n + 1) s = .next t ↔
    ∃ u : State, step s = .next u ∧ Host.Core.run Sys2Proof.core n u = .next t := by
  have e := Host.Core.run.eq_2 Sys2Proof.core (show Sys2Proof.core.State from s) n
  constructor
  · intro h
    have h2 := e.symm.trans h
    cases hs : step s with
    | next u =>
      rw [show Sys2Proof.core.step s = .next u from hs] at h2
      exact ⟨u, rfl, h2⟩
    | fault f =>
      rw [show Sys2Proof.core.step s = .fault f from hs] at h2
      cases h2
    | refused r =>
      rw [show Sys2Proof.core.step s = .refused r from hs] at h2
      cases h2
  · rintro ⟨u, hs, h⟩
    refine e.trans ?_
    rw [show Sys2Proof.core.step s = .next u from hs]
    exact h

end Sys2Proof.Machine
end

