-- ==== Sys2Proof/Laws/Drive.lean ====
section
/-! SUPPORT. What `stepResult` can answer (spec/40_engine.md R80): the output stream and the status over one step. -/

namespace Sys2Proof.Machine

theorem stepResult_of_next {s t : State} (h : step s = .next t) (hs : t.status ≠ .halted) (ho : t.out = s.out) :
    stepResult s = .next t := by
  unfold stepResult
  rw [h]
  cases ht : t.status <;> simp_all

theorem stepResult_of_output {s t : State} {v : Int} (h : step s = .next t) (hs : t.status ≠ .halted)
    (ho : t.out = s.out ++ [v]) : stepResult s = .output v t := by
  unfold stepResult
  rw [h]
  cases ht : t.status <;> simp_all

theorem stepResult_of_halted {s t : State} (h : step s = .next t) (hs : t.status = .halted) :
    stepResult s = .halted t := by
  simp [stepResult, h, hs]

theorem stepResult_of_fault {s : State} {f : Fault} (h : step s = .fault f) :
    stepResult s = .fault f (takeFault s f) := by
  simp [stepResult, h]

/-- The five outcomes of a step, with the step each comes from. -/
theorem stepResult_cases (s : State) :
    (∃ t, stepResult s = .next t ∧ step s = .next t ∧ t.out = s.out ∧ t.status = .running ∧ s.status = .running) ∨
    (∃ v t, stepResult s = .output v t ∧ step s = .next t ∧ t.out = s.out ++ [v] ∧ t.status = .running ∧
      s.status = .running) ∨
    (∃ t, stepResult s = .halted t ∧ step s = .next t ∧ t.out = s.out ∧ t.status = .halted) ∨
    (∃ f, stepResult s = .fault f (takeFault s f) ∧ step s = .fault f) := by
  cases h : step s with
  | fault f => exact .inr (.inr (.inr ⟨f, stepResult_of_fault h, rfl⟩))
  | refused r =>
    exfalso
    unfold step at h
    split at h
    · cases h
    · cases h
    · split at h
      · cases h
      · exact exec_ne_refused _ _ _ h
  | next t =>
    rcases step_next_iff.mp h with ⟨hs, rfl⟩ | ⟨hs, i, -, hi⟩
    · exact .inr (.inr (.inl ⟨_, stepResult_of_halted h hs, rfl, rfl, hs⟩))
    · rcases exec_next_ports hi with ⟨ho, ht, -⟩ | ⟨x, v, -, -, ho, ht⟩ | ⟨-, rfl⟩
      · have ht' : t.status = .running := ht.trans hs
        exact .inl ⟨t, stepResult_of_next h (by simp [ht']) ho, rfl, ho, ht', hs⟩
      · have ht' : t.status = .running := ht.trans hs
        exact .inr (.inl ⟨v, t, stepResult_of_output h (by simp [ht']) ho, rfl, ho, ht', hs⟩)
      · exact .inr (.inr (.inl ⟨_, stepResult_of_halted h rfl, rfl, rfl, rfl⟩))

end Sys2Proof.Machine
end

