-- ==== Sys2Proof/Laws/Faults.lean ====
section
/-! SUPPORT. Which faults a part of an instruction, an instruction and a label can raise (spec/60_exceptions.md R150 to R157): said once,
so that no later proof unfolds a meaning to see how it can stop. -/

namespace Sys2Proof.Machine

/-- The faults of an operand, a result or a destination: each names the `ip` and the label of the instruction, and the negative address,
the value outside WORD_RANGE or the address at or above the capacity that raised it. -/
def OperandFault (s : State) (f : Fault) : Prop :=
  (∃ a k, a < 0 ∧ k ≠ Access.fetch ∧ f = .addressFault a k s.ip (some s.label)) ∨
  (∃ v, s.params.inRange v = false ∧ f = .arithmeticOverflow v s.ip s.label) ∨
  (∃ a, 0 ≤ a ∧ s.params.belowCapacity a.toNat = false ∧ f = .capacityFault a s.ip s.label)

theorem operandFault_of_checked {s : State} {v : Int} {f : Fault} (h : checked s v = .error f) : OperandFault s f :=
  .inr (.inl ⟨_, checked_error_iff.mp h⟩)

theorem operandFault_of_read {s : State} {x : Arg} {f : Fault} (h : ReadFaults s x f) : OperandFault s f := by
  unfold ReadFaults at h
  split at h
  · exact h.elim
  · exact .inl ⟨_, _, h.1, by decide, h.2⟩
  · rcases h with h | ⟨-, h, h'⟩
    · exact .inr (.inl ⟨_, h⟩)
    · exact .inl ⟨_, _, h, by decide, h'⟩

theorem operandFault_of_write {s : State} {d : Arg} {f : Fault} (h : WriteFaults s d f) : OperandFault s f := by
  rcases h with ⟨-, h⟩ | ⟨a, -, h, h'⟩ | ⟨a, -, h⟩
  · exact .inr (.inl ⟨_, h⟩)
  · exact .inl ⟨a, _, h, by decide, h'⟩
  · exact .inr (.inr ⟨_, h⟩)

theorem operandFault_of_storeBinary {op : Opcode} {result : Int → Int → Except Fault Int} {x y d : Arg} {s : State}
    {f : Fault} (hr : ∀ a b, result a b = .error f → OperandFault s f)
    (h : storeBinary op result x y d s = .error f) : OperandFault s f := by
  rcases storeBinary_error_iff.mp h with h | ⟨-, h | ⟨_, -, h | ⟨_, -, h | ⟨_, -, h⟩⟩⟩⟩
  · exact operandFault_of_checked h
  · exact operandFault_of_read h
  · exact operandFault_of_read h
  · exact hr _ _ h
  · exact operandFault_of_write h

theorem operandFault_of_jumpIf {op : Opcode} {taken : Int → Bool} {x y : Arg} {s : State} {f : Fault}
    (h : jumpIf op taken x y s = .error f) : OperandFault s f := by
  rcases jumpIf_error_iff.mp h with h | ⟨-, h | ⟨_, -, h⟩⟩
  · exact operandFault_of_checked h
  · exact operandFault_of_read h
  · exact operandFault_of_read h

/-- An instruction raises operand faults, and IN alone an underflow. -/
theorem exec_fault_cases {i : Instr} {s : State} {f : Fault} (h : exec i s = .fault f) :
    OperandFault s f ∨ ∃ d, i = .inp d ∧ s.inq = [] ∧ f = .inputUnderflow s.ip s.label := by
  cases i with
  | add x y d =>
    exact .inl (operandFault_of_storeBinary (fun _ _ h => operandFault_of_checked h) (conclude_fault_iff.mp h))
  | mul x y d =>
    exact .inl (operandFault_of_storeBinary (fun _ _ h => operandFault_of_checked h) (conclude_fault_iff.mp h))
  | lt x y d => exact .inl (operandFault_of_storeBinary (fun _ _ h => by cases h) (conclude_fault_iff.mp h))
  | eq x y d => exact .inl (operandFault_of_storeBinary (fun _ _ h => by cases h) (conclude_fault_iff.mp h))
  | jt x y => exact .inl (operandFault_of_jumpIf (conclude_fault_iff.mp h))
  | jf x y => exact .inl (operandFault_of_jumpIf (conclude_fault_iff.mp h))
  | hlt => cases h
  | inp d =>
    have h := conclude_fault_iff.mp h
    simp only [bind_error_iff] at h
    rcases h with h | ⟨_, _, h | ⟨_, _, h | ⟨_, _, h⟩⟩⟩
    · exact .inl (operandFault_of_checked h)
    · exact .inr ⟨d, rfl, takeInput_error_iff.mp h⟩
    · exact .inl (operandFault_of_write (writeBack_error_iff.mp h))
    · exact absurd h pure_ne_error
  | out x =>
    have h := conclude_fault_iff.mp h
    simp only [bind_error_iff] at h
    rcases h with h | ⟨_, _, h | ⟨_, _, h⟩⟩
    · exact .inl (operandFault_of_checked h)
    · exact .inl (operandFault_of_read (rd_error_iff.mp h))
    · exact absurd h pure_ne_error
  | arb x =>
    have h := conclude_fault_iff.mp h
    simp only [bind_error_iff] at h
    rcases h with h | ⟨_, _, h | ⟨_, _, h | ⟨_, _, h⟩⟩⟩
    · exact .inl (operandFault_of_checked h)
    · exact .inl (operandFault_of_read (rd_error_iff.mp h))
    · exact .inl (operandFault_of_checked h)
    · exact absurd h pure_ne_error

/-- A label that does not decode is Unknown, or the first of the slots its opcode uses with a bad digit is reported; the error names
the label. -/
theorem decodeLabel_error_cases {p : Params} {L : Int} {e : DecodeError} (h : decodeLabel p L = .error e) :
    e = .unknown L ∨ (0 ≤ L ∧ ∃ (op : Opcode) (slot : Nat), L.toNat % 100 = op.number ∧ 1 ≤ slot ∧
      e = .invalidMode L slot (digit L.toNat (slot + 1)) ∧ BadDigit p op slot (digit L.toNat (slot + 1)) ∧
      ∀ k, 1 ≤ k → k < slot → ¬ BadDigit p op k (digit L.toNat (k + 1))) := by
  unfold decodeLabel at h
  split at h
  · cases h; exact .inl rfl
  · next hl =>
    have hL : ((L.toNat : Nat) : Int) = L := by omega
    split at h
    · cases h; exact .inl rfl
    · next op ho =>
      have good {i : Nat} {m : Mode} (hm : slotMode p L.toNat op i = .ok m) : ¬ BadDigit p op i (digit L.toNat (i + 1)) :=
        fun hb => by rw [slotMode_error_iff.mpr ⟨hb, rfl⟩] at hm; cases hm
      suffices H : ∃ slot, 1 ≤ slot ∧ slotMode p L.toNat op slot = .error e ∧
          ∀ k, 1 ≤ k → k < slot → ¬ BadDigit p op k (digit L.toNat (k + 1)) by
        obtain ⟨slot, h1, he, hg⟩ := H
        obtain ⟨hb, rfl⟩ := slotMode_error_iff.mp he
        exact .inr ⟨by omega, op, slot, opcodeOf_eq_some.mp ho, h1, by rw [hL], hb, hg⟩
      simp only [bind_error_iff] at h
      rcases h with h | ⟨_, h1, h | ⟨_, h2, h | ⟨_, _, h⟩⟩⟩
      · exact ⟨1, le_rfl, h, fun k _ _ => by omega⟩
      · refine ⟨2, by omega, h, fun k _ _ => ?_⟩
        obtain rfl : k = 1 := by omega
        exact good h1
      · refine ⟨3, by omega, h, fun k _ _ => ?_⟩
        obtain rfl | rfl : k = 1 ∨ k = 2 := by omega
        · exact good h1
        · exact good h2
      · exact absurd h pure_ne_error

end Sys2Proof.Machine
end

