-- ==== Sys2Proof/Laws/PerInstr.lean ====
section
/-! SUPPORT. The per-instruction family `EncodedLength`: the assembled cells of an instruction are as many as the length of
its opcode (spec/30_encoding.md R60, R64, R74), and the label they start with has that opcode's number in its lowest two digits. -/

namespace Sys2Proof.Laws.EncodedLength

/-- What the family states of one instruction. -/
def Statement (i : Instr) : Prop :=
  (encode i).length = i.length ∧ i.label % 100 = i.opcode.number ∧ i.args.length = i.opcode.nargs

theorem label_mod (op : Opcode) (a b c : Nat) : labelOf op a b c % 100 = op.number := by
  cases op <;> simp only [labelOf, Opcode.number] <;> omega

theorem add (x y d : Arg) : Statement (.add x y d) := ⟨rfl, label_mod _ _ _ _, rfl⟩
theorem mul (x y d : Arg) : Statement (.mul x y d) := ⟨rfl, label_mod _ _ _ _, rfl⟩
theorem inp (d : Arg) : Statement (.inp d) := ⟨rfl, label_mod _ _ _ _, rfl⟩
theorem out (x : Arg) : Statement (.out x) := ⟨rfl, label_mod _ _ _ _, rfl⟩
theorem jt (x y : Arg) : Statement (.jt x y) := ⟨rfl, label_mod _ _ _ _, rfl⟩
theorem jf (x y : Arg) : Statement (.jf x y) := ⟨rfl, label_mod _ _ _ _, rfl⟩
theorem lt (x y d : Arg) : Statement (.lt x y d) := ⟨rfl, label_mod _ _ _ _, rfl⟩
theorem eq (x y d : Arg) : Statement (.eq x y d) := ⟨rfl, label_mod _ _ _ _, rfl⟩
theorem arb (x : Arg) : Statement (.arb x) := ⟨rfl, label_mod _ _ _ _, rfl⟩
theorem hlt : Statement .hlt := ⟨rfl, label_mod _ _ _ _, rfl⟩

end Sys2Proof.Laws.EncodedLength
end

