-- ==== Sys2Proof/Tests/Slice0.lean ====
section
/-! SUPPORT. Named tests. Expected results come from spec/95_test_vectors.md and the rules' own examples; each test names its source.
After them, for every obligation with hypotheses, a theorem that shows values meeting all of them together. -/

open Sys2Proof Sys2Proof.Machine

namespace Sys2Proof.Tests

/-- An engine built from an image, with `rb` and the input queue as given (95_test_vectors.md section 2). -/
def eng (image : List Int) (rb : Int) (inq : List Int) : State :=
  ((constructed Params.hardware image).withRb rb).withInq inq

/-- The same under other parameters. -/
def engP (p : Params) (image : List Int) (rb : Int) (inq : List Int) : State :=
  ((constructed p image).withRb rb).withInq inq

def strict : Params := { Params.hardware with strictModeDigits := true, strictWriteImmediate := true }
def strictDigits : Params := { Params.hardware with strictModeDigits := true }
def strictTarget : Params := { Params.hardware with strictWriteImmediate := true }
def small : Params := { Params.hardware with memCapacity := .finite 64 }
def wide : Params := { Params.hardware with wordBits := .unbounded }

/-- A view of the next state, if there is one. -/
def after {α : Type} (o : Host.Outcome State Fault Refusal) (view : State → α) : Option α :=
  match o with
  | .next t => some (view t)
  | _ => none

/-- The fault, if the outcome is one. -/
def faultOf (o : Host.Outcome State Fault Refusal) : Option Fault :=
  match o with
  | .fault f => some f
  | _ => none

/-- Cell `a`, `ip` and the extent. -/
def seen (a : Nat) (t : State) : Int × Int × Nat := (t.mem.cell a, t.ip, t.mem.extent)

def pos (v : Int) : Arg := ⟨.position, v⟩
def imm (v : Int) : Arg := ⟨.immediate, v⟩
def rel (v : Int) : Arg := ⟨.relative, v⟩

/-! ### WellFormed refuses an ill-formed term for each check -/

theorem test_wf_read_argument_out_of_range : (Instr.add (imm (2 ^ 63)) (pos 0) (pos 0)).wf Params.hardware = false := by decide
theorem test_wf_second_read_argument_out_of_range : (Instr.jt (pos 0) (imm (-2 ^ 63 - 1))).wf Params.hardware = false := by decide
theorem test_wf_target_out_of_range : (Instr.inp (pos (2 ^ 63))).wf Params.hardware = false := by decide
theorem test_wf_immediate_target_when_strict : (Instr.lt (pos 0) (pos 0) (imm 5)).wf strict = false := by decide
theorem test_wf_accepts_the_ends_of_the_range :
    (Instr.eq (imm (2 ^ 63 - 1)) (rel (-2 ^ 63)) (imm 5)).wf Params.hardware = true := by decide

/-! ### Decoding: cells written out from 30_encoding.md R61, R63, R65; examples of R74 where it has one -/

/-- R74: `ADD [9], #1, [rb+2]`: O = 01, A = 0, B = 1, C = 2. -/
theorem test_decode_add : decodeCells Params.hardware [21001, 9, 1, 2] = .ok (.add (pos 9) (imm 1) (rel 2), []) := by decide
/-- R101: `1002,4,3,4`. -/
theorem test_decode_mul : decodeCells Params.hardware [1002, 4, 3, 4, 33] = .ok (.mul (pos 4) (imm 3) (pos 4), [33]) := by decide
/-- R110: label 203 is Relative. -/
theorem test_decode_in : decodeCells Params.hardware [203, -2, 99] = .ok (.inp (rel (-2)), [99]) := by decide
/-- R74: `OUT #7`. -/
theorem test_decode_out : decodeCells Params.hardware [104, 7] = .ok (.out (imm 7), []) := by decide
/-- R74: `JT #1, [6]`. -/
theorem test_decode_jt : decodeCells Params.hardware [105, 1, 6] = .ok (.jt (imm 1) (pos 6), []) := by decide
/-- R121: `1006,101,0`. -/
theorem test_decode_jf : decodeCells Params.hardware [1006, 101, 0] = .ok (.jf (pos 101) (imm 0), []) := by decide
/-- Section 2.1: 21107. -/
theorem test_decode_lt : decodeCells Params.hardware [21107, 1, 2, 3] = .ok (.lt (imm 1) (imm 2) (rel 3), []) := by decide
/-- S5: `8,9,10,9`. -/
theorem test_decode_eq : decodeCells Params.hardware [8, 9, 10, 9, 4] = .ok (.eq (pos 9) (pos 10) (pos 9), [4]) := by decide
/-- R74: `ARB [rb-3]`. -/
theorem test_decode_arb : decodeCells Params.hardware [209, -3] = .ok (.arb (rel (-3)), []) := by decide
/-- Section 2.1: 20199, digits ignored. -/
theorem test_decode_hlt : decodeCells Params.hardware [20199] = .ok (.hlt, []) := by decide

/-- R74's examples, the other way. -/
theorem test_encode_examples : encode (.add (pos 9) (imm 1) (rel 2)) = [21001, 9, 1, 2] ∧ encode (.out (imm 7)) = [104, 7] ∧
    encode (.jt (imm 1) (pos 6)) = [105, 1, 6] ∧ encode (.arb (rel (-3))) = [209, -3] ∧ encode .hlt = [99] := by decide
/-- Section 2.1: the labels without an opcode. -/
theorem test_decode_unknown_labels : ∀ L ∈ [0, 100, 98, 10, 12345, -1, -99],
    decodeLabel Params.hardware L = .error (.unknown L) := by decide
/-- Section 2.1: the accepted looseness of this hardware. -/
theorem test_decode_loose_labels :
    decodeLabel Params.hardware 103 = .ok ⟨.inp, .immediate, .position, .position⟩ ∧
    decodeLabel Params.hardware 11101 = .ok ⟨.add, .immediate, .immediate, .immediate⟩ ∧
    decodeLabel Params.hardware 30001 = .ok ⟨.add, .position, .position, .position⟩ ∧
    decodeLabel Params.hardware 1301 = .ok ⟨.add, .position, .immediate, .position⟩ ∧
    decodeLabel Params.hardware 100001 = .ok ⟨.add, .position, .position, .position⟩ := by decide
/-- Section 2.1, last column: the same labels under both strictness parameters. -/
theorem test_decode_strict_labels :
    decodeLabel strict 103 = .error (.invalidMode 103 1 1) ∧ decodeLabel strict 11101 = .error (.invalidMode 11101 3 1) ∧
    decodeLabel strict 30001 = .error (.invalidMode 30001 3 3) ∧ decodeLabel strict 1301 = .error (.invalidMode 1301 1 3) ∧
    decodeLabel strict 1104 = .ok ⟨.out, .immediate, .position, .position⟩ := by decide
/-- The host's view: a table word alone is the label, its arguments 0 (log entry 12). -/
theorem test_table_word_jf : decodeTableWord 64 6 = some (.jf (pos 0) (pos 0)) := by decide
theorem test_table_word_negative_argument : decodeTableWord 128 (104 + 2 ^ 64 * (2 ^ 64 - 5)) = some (.out (imm (-5))) := by decide
theorem test_fetch_word_runs_first : after (step (State.reset.withFetchWord 64 1)) (seen 0) = some (2, 4, 4) := by decide
theorem test_fetch_word_halts : after (step (State.reset.withFetchWord 8 99)) (fun t => t.status) = some .halted := by decide

/-! ### Memory (section 2.2) -/

theorem test_read_beyond_extent : memRead (eng [7, 8] 0 []) 1 = .ok 8 ∧ memRead (eng [7, 8] 0 []) (10 ^ 12) = .ok 0 := by decide
theorem test_read_negative : memRead (eng [7, 8] 0 []) (-1) = .error (.addressFault (-1) .read 0 (some 7)) := by decide
theorem test_write_grows : memWrite (eng [7, 8] 0 []) 5 9 = .ok ⟨[(0, 7), (1, 8), (5, 9)], 6⟩ := by decide
theorem test_write_inside : memWrite (eng [7, 8] 0 []) 0 9 = .ok ⟨[(0, 9), (1, 8)], 2⟩ := by decide
theorem test_write_zero_is_canonical : memWrite (eng [7, 8] 0 []) 1 0 = .ok ⟨[(0, 7)], 2⟩ := by decide
theorem test_capacity : memWrite (engP small [7, 8] 0 []) 100 2 = .error (.capacityFault 100 0 7) ∧
    memRead (engP small [7, 8] 0 []) 100 = .ok 0 := by decide
theorem test_memory_wf_refuses_unsorted : (Memory.mk [(1, 8), (0, 7)] 2).wf = false ∧ (Memory.mk [(0, 0)] 2).wf = false ∧
    (Memory.mk [(2, 1)] 2).wf = false := by decide

/-! ### One step (sections 2.3 to 2.8), at most two a mnemonic -/

/-- All Relative, with a negative operand. -/
theorem test_add_relative : after (step (eng [22201, 0, 1, 2, 99, 10, -3] 5 [])) (seen 7) = some (7, 4, 8) := by decide
/-- 2^62 + 2^62 overflows 64 bits and not the unbounded word. -/
theorem test_add_overflow :
    faultOf (step (eng [1101, 2 ^ 62, 2 ^ 62, 5, 99] 0 [])) = some (.arithmeticOverflow (2 ^ 63) 0 1101) ∧
    after (step (engP wide [1101, 2 ^ 62, 2 ^ 62, 5, 99] 0 [])) (seen 5) = some (2 ^ 63, 4, 6) := by decide
theorem test_mul_signs : after (step (eng [1102, -3, 4, 5, 99] 0 [])) (seen 5) = some (-12, 4, 6) := by decide
theorem test_mul_edge :
    after (step (eng [1102, -2 ^ 31, 2 ^ 32, 5, 99] 0 [])) (seen 5) = some (-2 ^ 63, 4, 6) ∧
    faultOf (step (eng [1102, 2 ^ 31, 2 ^ 32, 5, 99] 0 [])) = some (.arithmeticOverflow (2 ^ 63) 0 1102) := by decide
theorem test_in_relative : after (step (eng [203, -2, 99] 4 [9, 8])) (fun t => (seen 2 t, t.inq)) = some ((9, 2, 3), [8]) := by decide
/-- An empty queue is reported before a bad destination. -/
theorem test_in_underflow_first : faultOf (step (eng [3, -1, 99] 0 [])) = some (.inputUnderflow 0 3) ∧
    faultOf (step (eng [3, -1, 99] 0 [5])) = some (.addressFault (-1) .write 0 (some 3)) := by decide
theorem test_out_relative : after (step (eng [204, -1, 99] 3 [])) (fun t => (t.out, t.ip)) = some ([99], 2) := by decide
theorem test_out_negative_read : faultOf (step (eng [204, 0, 99] (-1) [])) = some (.addressFault (-1) .read 0 (some 204)) := by decide
theorem test_jt_negative_condition : after (step (eng [1105, -1, 9] 0 [])) (fun t => t.ip) = some 9 ∧
    after (step (eng [1105, 0, 9] 0 [])) (fun t => t.ip) = some 3 := by decide
/-- D10: the target of a jump not taken is still resolved. -/
theorem test_jt_resolves_untaken_target : faultOf (step (eng [105, 0, -1] 0 [])) = some (.addressFault (-1) .read 0 (some 105)) := by decide
theorem test_jf : after (step (eng [1106, 0, 9] 0 [])) (fun t => t.ip) = some 9 ∧
    after (step (eng [1106, 3, 9] 0 [])) (fun t => t.ip) = some 3 := by decide
theorem test_lt_signed : after (step (eng [1107, -1, 0, 5, 99] 0 [])) (seen 5) = some (1, 4, 6) := by decide
theorem test_lt_order : after (step (eng [1107, 4, 4, 5, 99] 0 [])) (seen 5) = some (0, 4, 6) ∧
    after (step (eng [1107, 5, 4, 5, 99] 0 [])) (seen 5) = some (0, 4, 6) := by decide
theorem test_eq : after (step (eng [1108, 2 ^ 60, 2 ^ 60, 5, 99] 0 [])) (seen 5) = some (1, 4, 6) ∧
    after (step (eng [1108, -1, 1, 5, 99] 0 [])) (seen 5) = some (0, 4, 6) := by decide
theorem test_arb_old_base : after (step (eng [209, 1, 99] 1 [])) (fun t => (t.rb, t.ip)) = some (100, 2) := by decide
theorem test_arb_overflow : faultOf (step (eng [109, 1, 99] (2 ^ 63 - 1) [])) = some (.arithmeticOverflow (2 ^ 63) 0 109) := by decide
theorem test_hlt : after (step (eng [20199] 0 [])) (fun t => (t.status, t.ip)) = some (.halted, 0) := by decide
theorem test_fetch_faults : faultOf (step (eng [] 0 [])) = some (.decodeFault 0 0) ∧
    faultOf (step ((eng [99] 0 []).withIp (-5))) = some (.addressFault (-5) .fetch (-5) none) ∧
    faultOf (step (engP strict [1301, 5, 6, 7, 99, 10, 20] 0 [])) = some (.invalidMode 1 3 0 1301) := by decide
theorem test_immediate_target_is_position : after (step (eng [11101, 1, 1, 5, 99] 0 [])) (seen 5) = some (2, 4, 6) := by decide
theorem test_capacity_fault_of_add : faultOf (step (engP small [1101, 1, 1, 100, 99] 0 [])) = some (.capacityFault 100 0 1101) := by decide
/-- R95: a call returns at the OUT with `ip` at the next instruction; P6's negative jump fails at the next fetch. -/
theorem test_run_to_next_output : runToNextOutput 1 (eng [104, -5, 99] 0 []) [] =
    .value (-5) (((eng [104, -5, 99] 0 []).withIp 2).withOut [-5]) := by decide
theorem test_negative_jump_fails : runToCompletion 2 (eng [1105, 1, -5] 0 []) [] =
    .failed (.addressFault (-5) .fetch (-5) none)
      (((eng [1105, 1, -5] 0 []).withIp (-5)).withStatus (.faulted (.addressFault (-5) .fetch (-5) none))) := by decide
theorem test_launch_refusals : construct Params.hardware [1, 2 ^ 63] = .error (.imageOutOfRange (2 ^ 63)) ∧
    presentInput State.reset [-2 ^ 63 - 1] = .error (.inputOutOfRange (-2 ^ 63 - 1)) := by decide

/-! ### Witnesses: for every obligation with hypotheses, values that meet them all; one for each clause where there are several -/

/-- A running engine whose first instruction is `1101,2,3,5`: ADD #2, #3, [5]. -/
def addEng : State := eng [1101, 2, 3, 5, 99] 0 []

/-- The state after the first step of `addEng`. -/
def addEng1 : State := ((addEng.withIp 4).withMem (addEng.mem.store 5 5))

theorem addEng_step : step addEng = .next addEng1 := by rfl
theorem addEng_fetch : fetch addEng = .ok (.add (imm 2) (imm 3) (pos 5)) := by rfl

theorem witness_construction : ∀ v ∈ [2 ^ 63 - 1, -2 ^ 63], Params.hardware.inRange v = true := by decide
theorem witness_launch_refusals : (∃ v ∈ [0, 2 ^ 63], Params.hardware.inRange v = false) ∧
    (∃ v ∈ [-2 ^ 63 - 1], State.reset.params.inRange v = false) := by decide
theorem witness_reads : (-1 : Int) < 0 ∧ (addEng.mem.extent : Int) ≤ 5 ∧ ¬ (addEng.mem.extent : Int) ≤ 4 := by decide
theorem witness_write_then_read : memWrite addEng 5 9 = .ok (addEng.mem.store 5 9) ∧ (0 : Int) ≤ 4 ∧ (4 : Int) ≠ 5 := by decide
theorem witness_same_cells : (Memory.mk [(0, 7)] 1).wf = true ∧ (Memory.mk [(0, 7)] 9).wf = true ∧
    (Memory.mk [(0, 7)] 1).cells = (Memory.mk [(0, 7)] 9).cells := by decide
theorem witness_write_checks : (-1 : Int) < 0 ∧ ((0 : Int) ≤ 64 ∧ (engP small [] 0 []).params.belowCapacity (64 : Int).toNat = false) ∧
    ((0 : Int) ≤ 63 ∧ (engP small [] 0 []).params.belowCapacity (63 : Int).toNat = true) := by decide
theorem witness_extent : construct Params.hardware [1101, 2, 3, 5, 99] = .ok addEng ∧ step addEng = .next addEng1 ∧
    memWrite addEng 5 9 = .ok (addEng.mem.store 5 9) ∧ presentInput addEng [4] = .ok (addEng.withInq [4]) := ⟨by rfl, by rfl, by rfl, by rfl⟩
/-- Cell 6 of an engine that has had input presented and has run one step, and cell 5 of one that has faulted. -/
theorem witness_never_written : NeverStored Params.hardware [1101, 2, 3, 5, 99] 6 (addEng1.withInq [4]) ∧
    [(1101 : Int), 2, 3, 5, 99].length ≤ 6 ∧ NeverStored Params.hardware [] 5 (takeFault State.reset (.decodeFault 0 0)) := by
  refine ⟨.presented addEng1 _ [4] (.stepped addEng _ (.built _ (by rfl)) (by decide) addEng_step) (by rfl), by decide, ?_⟩
  exact .faulted State.reset _ (.built _ (by rfl)) (by rfl)
theorem witness_round_trip : (Instr.add (pos (-1)) (imm (2 ^ 63 - 1)) (rel (-2 ^ 63))).wf strict = true := by decide
/-- Labels with no bad digit: loose parameters with digits 1 in the write slot and 9; one strictness parameter with the digit that
only the other one reports. -/
theorem witness_label_fields : (0 : Nat) < 10 ∧ (1 : Nat) < 10 ∧ (9 : Nat) < 10 ∧
    (¬ BadDigit Params.hardware .add 1 0 ∧ ¬ BadDigit Params.hardware .add 2 9 ∧ ¬ BadDigit Params.hardware .add 3 1) ∧
    (¬ BadDigit strictDigits .inp 1 1 ∧ ¬ BadDigit strictDigits .inp 2 9) ∧
    (¬ BadDigit strictTarget .jt 1 3 ∧ ¬ BadDigit strictTarget .jt 2 1) := by unfold BadDigit; decide
/-- Each clause of the strict decoder, at the ends 1, 3 and 9 of the digits it reports, under each parameter alone and both. -/
theorem witness_strict_slots :
    (BadDigit strictDigits .add 1 3 ∧ BadDigit strictTarget .inp 1 1 ∧ BadDigit strict .inp 1 1) ∧
    (¬ BadDigit strictDigits .jt 1 2 ∧ BadDigit strictDigits .jt 2 9) ∧
    (¬ BadDigit strictTarget .eq 1 9 ∧ ¬ BadDigit strictTarget .eq 2 1 ∧ BadDigit strictTarget .eq 3 1) ∧
    (¬ BadDigit strict .add 1 2 ∧ ¬ BadDigit strict .add 2 2 ∧ ¬ BadDigit strict .add 3 2) := by
  refine ⟨?_, ?_, ?_, ?_⟩ <;> unfold BadDigit <;> decide
theorem witness_decode : decode Params.hardware 1002 (fun _ => 7) = .ok (.mul (pos 7) (imm 7) (pos 7)) ∧
    decode strict 20202 (fun _ => 0) = .ok (.mul (rel 0) (pos 0) (rel 0)) ∧ (1002 : Int).toNat % 100 = (20202 : Int).toNat % 100 :=
  ⟨by rfl, by rfl, by decide⟩
theorem witness_fetch : fetch addEng = .ok (.add (imm 2) (imm 3) (pos 5)) := addEng_fetch
theorem witness_step_runs : addEng.status = .running ∧ 0 ≤ addEng.ip ∧
    decode addEng.params (addEng.mem.cell addEng.ip.toNat) (fun k => addEng.mem.cell (addEng.ip.toNat + k)) =
      .ok (.add (imm 2) (imm 3) (pos 5)) := ⟨rfl, by decide, by rfl⟩
/-- The status clauses: a constructed engine, HLT next, a faulting step, a step to Halted, a halted and a faulted engine. -/
theorem witness_status : construct Params.hardware [] = .ok State.reset ∧
    ((eng [99] 0 []).status = .running ∧ fetch (eng [99] 0 []) = .ok .hlt) ∧
    (State.reset.status = .running ∧ step State.reset = .fault (.decodeFault 0 0)) ∧
    (step (eng [99] 0 []) = .next ((eng [99] 0 []).withStatus .halted) ∧ ((eng [99] 0 []).withStatus .halted).status ≠ .running) ∧
    (takeFault State.reset (.decodeFault 0 0)).status = .faulted (.decodeFault 0 0) :=
  ⟨by rfl, ⟨rfl, by rfl⟩, ⟨rfl, by rfl⟩, ⟨by rfl, by decide⟩, rfl⟩
/-- A running step of every kind the `ip` rule names: HLT, a taken and an untaken jump of each kind, and a plain step. -/
theorem witness_ip_and_effects : addEng.status = .running ∧ fetch addEng = .ok (.add (imm 2) (imm 3) (pos 5)) ∧
    step addEng = .next addEng1 ∧
    (fetch (eng [99] 0 []) = .ok .hlt ∧ step (eng [99] 0 []) = .next ((eng [99] 0 []).withStatus .halted)) ∧
    (fetch (eng [1105, 1, 9] 0 []) = .ok (.jt (imm 1) (imm 9)) ∧ step (eng [1105, 1, 9] 0 []) = .next ((eng [1105, 1, 9] 0 []).withIp 9)) ∧
    (fetch (eng [1106, 1, 9] 0 []) = .ok (.jf (imm 1) (imm 9)) ∧ step (eng [1106, 1, 9] 0 []) = .next ((eng [1106, 1, 9] 0 []).withIp 3)) ∧
    addEng1.mem ≠ addEng.mem :=
  ⟨rfl, by rfl, by rfl, ⟨by rfl, by rfl⟩, ⟨by rfl, by rfl⟩, ⟨by rfl, by rfl⟩, by decide⟩
theorem witness_relative_base_changes : step (eng [109, -3] 0 []) = .next (((eng [109, -3] 0 []).withIp 2).withRb (-3)) ∧
    (((eng [109, -3] 0 []).withIp 2).withRb (-3)).rb ≠ (eng [109, -3] 0 []).rb := ⟨by rfl, by decide⟩
theorem witness_input_queue :
    (step (eng [3, 3, 99] 0 [42]) = .next ((((eng [3, 3, 99] 0 [42]).withIp 2).withMem ((eng [3, 3, 99] 0 [42]).mem.store 3 42)).withInq []) ∧
      (eng [3, 3, 99] 0 [42]).status = .running ∧ fetch (eng [3, 3, 99] 0 [42]) = .ok (.inp (pos 3))) ∧
    (step addEng = .next addEng1 ∧ ∀ d, fetch addEng ≠ .ok (.inp d)) ∧
    construct Params.hardware [] = .ok State.reset ∧
    (∀ v ∈ (eng [3, 3, 99] 0 [42]).inq, (eng [3, 3, 99] 0 [42]).params.inRange v = true) ∧
    (∀ v ∈ [2 ^ 63 - 1], State.reset.params.inRange v = true) ∧ (∃ v ∈ [2 ^ 63], State.reset.params.inRange v = false) :=
  ⟨⟨by rfl, rfl, by rfl⟩, ⟨by rfl, fun d => by rw [addEng_fetch]; simp⟩, by rfl, by decide, by decide, by decide⟩
theorem witness_output_stream :
    (step (eng [104, -5] 0 []) = .next (((eng [104, -5] 0 []).withIp 2).withOut [-5]) ∧ (eng [104, -5] 0 []).status = .running ∧
      fetch (eng [104, -5] 0 []) = .ok (.out (imm (-5)))) ∧
    (step addEng = .next addEng1 ∧ ∀ x, fetch addEng ≠ .ok (.out x)) :=
  ⟨⟨by rfl, rfl, by rfl⟩, by rfl, fun d => by rw [addEng_fetch]; simp⟩
theorem witness_next_step : step addEng = .next addEng1 := addEng_step

theorem fits2 : AdvanceFits addEng 2 := by unfold AdvanceFits; decide
theorem fits3 : AdvanceFits addEng 3 := by unfold AdvanceFits; decide
theorem fits4 : AdvanceFits addEng 4 := by unfold AdvanceFits; decide
/-- The last cell from which a two-cell instruction's advance fits, and the first from which it does not. -/
theorem fits_edge : AdvanceFits (addEng.withIp (2 ^ 63 - 3)) 2 ∧ ¬ AdvanceFits (addEng.withIp (2 ^ 63 - 2)) 2 := by
  unfold AdvanceFits; decide

/-- ADD and MUL: both reads, a result in range, a writable target. -/
theorem witness_arithmetic : AdvanceFits addEng 4 ∧ Reads addEng (imm (2 ^ 63 - 1)) (2 ^ 63 - 1) ∧ Reads addEng (pos 3) 5 ∧
    Reads addEng (rel 4) 99 ∧ addEng.params.inRange ((2 ^ 63 - 1) + -1) = true ∧ addEng.params.inRange (5 * 99) = true ∧
    Reads addEng (imm (-1)) (-1) ∧ Targets addEng (pos 0) 0 ∧ Targets addEng (rel 10) 10 ∧ Targets addEng (imm 7) 7 :=
  ⟨fits4, rfl, ⟨by decide, by decide⟩, ⟨by decide, by decide, by decide⟩, by decide, by decide, rfl, ⟨rfl, by decide⟩,
    ⟨⟨by decide, by decide⟩, by decide⟩, ⟨rfl, by decide⟩⟩
theorem witness_in : AdvanceFits (eng [3, 3] 0 [42]) 2 ∧ (eng [3, 3] 0 [42]).inq = 42 :: [] ∧ Targets (eng [3, 3] 0 [42]) (pos 3) 3 :=
  ⟨by unfold AdvanceFits; decide, rfl, ⟨rfl, by decide⟩⟩
theorem witness_out : AdvanceFits addEng 2 ∧ Reads addEng (pos 50) 0 := ⟨fits2, by decide, by decide⟩
theorem witness_jumps : AdvanceFits addEng 3 ∧ Reads addEng (imm (-1)) (-1) ∧ Reads addEng (imm 0) 0 ∧ Reads addEng (pos 4) 99 :=
  ⟨fits3, rfl, rfl, by decide, by decide⟩
theorem witness_compare : AdvanceFits addEng 4 ∧ Reads addEng (imm (-1)) (-1) ∧ Reads addEng (imm 0) 0 ∧ Targets addEng (pos 5) 5 :=
  ⟨fits4, rfl, rfl, rfl, by decide⟩
theorem witness_arb : AdvanceFits addEng 2 ∧ Reads addEng (imm (-2 ^ 63)) (-2 ^ 63) ∧ addEng.params.inRange (addEng.rb + -2 ^ 63) = true :=
  ⟨fits2, rfl, by decide⟩
theorem witness_hlt : (eng [20199] 0 []).status = .running ∧ 0 ≤ (eng [20199] 0 []).ip ∧
    0 ≤ (eng [20199] 0 []).mem.cell (eng [20199] 0 []).ip.toNat ∧
    ((eng [20199] 0 []).mem.cell (eng [20199] 0 []).ip.toNat).toNat % 100 = 99 := by decide
/-- Relative addressing, clause by clause: address 0, the extent, −1, and one past WORD_RANGE. -/
theorem witness_relative : ((1 : Nat) ≤ Opcode.out.nargs ∧ digit 204 2 = 2) ∧
    ((eng [7] 4 []).params.inRange (4 + -4) = true ∧ (0 : Int) ≤ 4 + -4) ∧
    ((eng [7] 4 []).params.inRange (4 + (2 ^ 63 - 4)) = false) ∧
    ((eng [7] 4 []).params.inRange (4 + -3) = true ∧ ((eng [7] 4 []).mem.extent : Int) ≤ 4 + -3) ∧
    (wa (eng [7] 4 []) (rel 6) = .ok (4 + 6) ∧ memWrite (eng [7] 4 []) (4 + 6) 1 = .ok ((eng [7] 4 []).mem.store 10 1)) ∧
    ((eng [7] 4 []).params.inRange (4 + -5) = true ∧ (4 : Int) + -5 < 0) := by decide
/-- The labels at the ends of the ranges without an opcode, a DecodeFault, and a fetch at the extent. -/
theorem witness_decode_fault : (State.reset.status = .running ∧ 0 ≤ State.reset.ip) ∧
    ((eng [-1] 0 []).label < 0 ∧ (eng [100] 0 []).label.toNat % 100 = 0 ∧ 10 ≤ (eng [10] 0 []).label.toNat % 100 ∧
      (eng [98] 0 []).label.toNat % 100 ≤ 98) ∧
    step State.reset = .fault (.decodeFault 0 0) ∧ (State.reset.mem.extent : Int) ≤ State.reset.ip :=
  ⟨by decide, by decide, by rfl, by decide⟩
theorem witness_underflow : AdvanceFits addEng 2 ∧ addEng.inq = [] ∧ exec (.inp (pos 0)) addEng = .fault (.inputUnderflow 0 1101) ∧
    (eng [3, 3] 0 []).status = .running ∧ fetch (eng [3, 3] 0 []) = .ok (.inp (pos 3)) ∧ AdvanceFits (eng [3, 3] 0 []) 2 ∧
    (eng [3, 3] 0 []).inq = [] ∧ step (eng [3, 3] 0 []) = .fault (.inputUnderflow 0 3) :=
  ⟨fits2, rfl, by rfl, rfl, by rfl, by unfold AdvanceFits; decide, rfl, by rfl⟩
/-- `11308`: an EQ whose digits are A = 3, B = 1, C = 1; slot 1 is bad under STRICT_MODE_DIGITS, slot 3 alone under
STRICT_WRITE_IMMEDIATE, none under this hardware's parameters. -/
theorem witness_invalid_mode :
    ((engP strictDigits [11308] 0 []).status = .running ∧ 0 ≤ (engP strictDigits [11308] 0 []).ip ∧
      0 ≤ (engP strictDigits [11308] 0 []).label ∧ (engP strictDigits [11308] 0 []).label.toNat % 100 = Opcode.eq.number) ∧
    decodeLabel strictDigits (engP strictDigits [11308] 0 []).label = .error (.invalidMode 11308 1 3) ∧
    (BadDigit strictDigits .eq 1 (digit 11308 2) ∧ ∀ k, 1 ≤ k → k < 1 → ¬ BadDigit strictDigits .eq k (digit 11308 (k + 1))) ∧
    (BadDigit strictTarget .eq 3 (digit 11308 4) ∧ ∀ k, 1 ≤ k → k < 3 → ¬ BadDigit strictTarget .eq k (digit 11308 (k + 1))) ∧
    step (engP strictDigits [11308] 0 []) = .fault (.invalidMode 1 3 0 11308) ∧
    step (engP strictTarget [11308] 0 []) = .fault (.invalidMode 3 1 0 11308) ∧
    ((eng [11308] 0 []).params.strictModeDigits = false ∧ (eng [11308] 0 []).params.strictWriteImmediate = false) := by
  refine ⟨by decide, by rfl, ⟨by unfold BadDigit; decide, fun k _ _ => by omega⟩, ⟨by unfold BadDigit; decide, fun k _ _ => ?_⟩,
    by rfl, by rfl, by decide⟩
  obtain rfl | rfl : k = 1 ∨ k = 2 := by omega
  all_goals unfold BadDigit; decide
theorem witness_address_fault : ((addEng.withIp (-1)).status = .running ∧ (addEng.withIp (-1)).ip < 0) ∧ (-1 : Int) < 0 ∧
    (addEng.withIp (-1)).status = .running ∧ step (addEng.withIp (-1)) = .fault (.addressFault (-1) .fetch (-1) none) ∧
    step (eng [4, -1] 0 []) = .fault (.addressFault (-1) .read 0 (some 4)) := ⟨by decide, by decide, rfl, by rfl, by rfl⟩
theorem witness_overflow : AdvanceFits addEng 4 ∧ Reads addEng (imm (2 ^ 63 - 1)) (2 ^ 63 - 1) ∧ Reads addEng (imm 1) 1 ∧
    addEng.params.inRange (2 ^ 63 - 1 + 1) = false ∧ Reads addEng (imm (-2 ^ 63)) (-2 ^ 63) ∧ Reads addEng (imm (-1)) (-1) ∧
    addEng.params.inRange (-2 ^ 63 * -1) = false ∧ AdvanceFits (addEng.withRb 1) 2 ∧
    Reads (addEng.withRb 1) (imm (2 ^ 63 - 1)) (2 ^ 63 - 1) ∧ (addEng.withRb 1).params.inRange (1 + (2 ^ 63 - 1)) = false :=
  ⟨fits4, rfl, rfl, by decide, rfl, rfl, by decide, by unfold AdvanceFits; decide, rfl, by decide⟩
theorem witness_advance_overflow : Instr.out (imm 0) ≠ .hlt ∧ ¬ AdvanceFits (addEng.withIp (2 ^ 63 - 2)) (Instr.out (imm 0)).length :=
  ⟨by decide, fits_edge.2⟩
theorem witness_first_read_fault : Instr.out (pos (-1)) ∈ [Instr.add (pos (-1)) (imm 0) (pos 0), .mul (pos (-1)) (imm 0) (pos 0),
      .lt (pos (-1)) (imm 0) (pos 0), .eq (pos (-1)) (imm 0) (pos 0), .out (pos (-1)), .jt (pos (-1)) (imm 0), .jf (pos (-1)) (imm 0),
      .arb (pos (-1))] ∧
    AdvanceFits addEng (Instr.out (pos (-1))).length ∧ ReadFaults addEng (pos (-1)) (.addressFault (-1) .read 0 (some 1101)) :=
  ⟨by decide, fits2, by decide, by rfl⟩
theorem witness_second_read_fault : Instr.jt (imm 0) (rel (-1)) ∈ [Instr.add (imm 0) (rel (-1)) (pos 0), .mul (imm 0) (rel (-1)) (pos 0),
      .lt (imm 0) (rel (-1)) (pos 0), .eq (imm 0) (rel (-1)) (pos 0), .jt (imm 0) (rel (-1)), .jf (imm 0) (rel (-1))] ∧
    AdvanceFits addEng (Instr.jt (imm 0) (rel (-1))).length ∧ Reads addEng (imm 0) 0 ∧
    ReadFaults addEng (rel (-1)) (.addressFault (-1) .read 0 (some 1101)) :=
  ⟨by decide, fits3, rfl, .inr ⟨by decide, by decide, by rfl⟩⟩
/-- The three ways a destination faults: the Relative sum, a negative address, the capacity. -/
theorem witness_destination_fault : AdvanceFits addEng 4 ∧ Reads addEng (imm 1) 1 ∧ addEng.params.inRange (1 + 1) = true ∧
    addEng.params.inRange (1 * 1) = true ∧ WriteFaults addEng (pos (-1)) (.addressFault (-1) .write 0 (some 1101)) ∧
    WriteFaults (addEng.withRb 1) (rel (2 ^ 63 - 1)) (.arithmeticOverflow (2 ^ 63) 0 1101) ∧
    WriteFaults (engP small [3, 64] 0 [5]) (pos 64) (.capacityFault 64 0 3) ∧ AdvanceFits (engP small [3, 64] 0 [5]) 2 ∧
    (engP small [3, 64] 0 [5]).inq ≠ [] :=
  ⟨fits4, rfl, by decide, by decide, .inr (.inl ⟨-1, rfl, by decide, by rfl⟩), .inl ⟨rfl, by decide, by rfl⟩,
    .inr (.inr ⟨64, rfl, by decide, by decide, by rfl⟩), by unfold AdvanceFits; decide, by decide⟩
/-- A running engine that raises each of the six faults. -/
theorem witness_fault_record : (eng [98] 0 []).status = .running ∧ step (eng [98] 0 []) = .fault (.decodeFault 0 98) ∧
    step (eng [3, 3] 0 []) = .fault (.inputUnderflow 0 3) ∧ step (addEng.withIp (-1)) = .fault (.addressFault (-1) .fetch (-1) none) ∧
    step (eng [1101, 2 ^ 63 - 1, 1, 5] 0 []) = .fault (.arithmeticOverflow (2 ^ 63) 0 1101) ∧
    step (engP small [3, 64] 0 [5]) = .fault (.capacityFault 64 0 3) ∧
    step (engP strictTarget [103] 0 [5]) = .fault (.invalidMode 1 1 0 103) := ⟨rfl, by rfl, by rfl, by rfl, by rfl, by rfl, by rfl⟩
theorem witness_store_frame : Instr.add (imm 2) (imm 3) (pos 5) ∈ [Instr.add (imm 2) (imm 3) (pos 5), .mul (imm 2) (imm 3) (pos 5),
      .lt (imm 2) (imm 3) (pos 5), .eq (imm 2) (imm 3) (pos 5)] ∧
    exec (.add (imm 2) (imm 3) (pos 5)) addEng = .next addEng1 ∧ wa addEng (pos 5) = .ok 5 ∧ ((4 : Nat) : Int) ≠ 5 :=
  ⟨by decide, by rfl, by rfl, by decide⟩
theorem witness_in_frame : exec (.inp (pos 3)) (eng [3, 3] 0 [42]) =
      .next ((((eng [3, 3] 0 [42]).withIp 2).withMem ((eng [3, 3] 0 [42]).mem.store 3 42)).withInq []) ∧
    wa (eng [3, 3] 0 [42]) (pos 3) = .ok 3 := ⟨by rfl, by rfl⟩
theorem witness_non_storing_frame : Instr.arb (imm 1) ∈ [Instr.out (imm 1), .jt (imm 1) (imm 0), .jf (imm 1) (imm 0), .arb (imm 1), .hlt] ∧
    exec (.arb (imm 1)) addEng = .next ((addEng.withIp 2).withRb 1) := ⟨by decide, by rfl⟩
theorem witness_step_store : step addEng = .next addEng1 ∧ stepStoreAddr addEng ≠ some ((4 : Nat) : Int) := ⟨by rfl, by decide⟩
theorem witness_invariant : addEng.inv = true ∧ step addEng = .next addEng1 := ⟨by decide, by rfl⟩
theorem witness_invariant_construction : wide.wf = true ∧ construct wide [2 ^ 70] = .ok (constructed wide [2 ^ 70]) := ⟨by decide, by rfl⟩
theorem witness_capacity_kept : (engP small [1101, 2, 3, 63] 0 []).fitsCapacity = true ∧
    step (engP small [1101, 2, 3, 63] 0 []) = .next (((engP small [1101, 2, 3, 63] 0 []).withIp 4).withMem
      ((engP small [1101, 2, 3, 63] 0 []).mem.store 63 5)) := ⟨by decide, by rfl⟩
/-- Two different states that read the same. -/
theorem witness_same_visible : SameVisible addEng (addEng.withMem { addEng.mem with extent := 9 }) ∧
    addEng ≠ addEng.withMem { addEng.mem with extent := 9 } := by
  refine ⟨⟨rfl, rfl, fun a => ?_, rfl, rfl, rfl, rfl⟩, by decide⟩
  rw [Memory.cell_eq_lookup (by decide), Memory.cell_eq_lookup (by decide)]
  rfl
theorem witness_next_output : runToNextOutput 1 (eng [104, -5] 0 []) [] = .value (-5) (((eng [104, -5] 0 []).withIp 2).withOut [-5]) ∧
    nextOutputLoop 1 (eng [104, -5] 0 []) = .value (-5) (((eng [104, -5] 0 []).withIp 2).withOut [-5]) := ⟨by rfl, by rfl⟩
theorem witness_call_ends : nextOutputLoop 1 (eng [99] 0 []) = .done ((eng [99] 0 []).withStatus .halted) ∧
    nextOutputLoop 1 State.reset = .failed (.decodeFault 0 0) (takeFault State.reset (.decodeFault 0 0)) ∧
    completionLoop 1 (eng [99] 0 []) = .completed [] ((eng [99] 0 []).withStatus .halted) ∧
    completionLoop 1 State.reset = .failed (.decodeFault 0 0) (takeFault State.reset (.decodeFault 0 0)) := ⟨by rfl, by rfl, by rfl, by rfl⟩
theorem witness_safe_and_faulted : safeFor 2 (eng [1101, 2, 3, 5, 99] 0 []) = true ∧
    (takeFault State.reset (.decodeFault 0 0)).status = .faulted (.decodeFault 0 0) ∧
    ∀ v ∈ [7], (takeFault State.reset (.decodeFault 0 0)).params.inRange v = true := ⟨by decide, rfl, by decide⟩

end Sys2Proof.Tests
end

section
/-! The reset state as a construction (spec/00_scope.md R6, 10_state.md R32, 70_reset_and_hazards.md R180). -/

namespace Sys2Proof.Machine

/-- Reset is R180's state for the image of no cells (log entry 5). -/
theorem State.reset_eq_constructed : State.reset = constructed Params.hardware [] := rfl

/-- The zero fill of R32, read off the cells of a fresh memory for the image of no cells. -/
@[simp] theorem State.reset_cell (a : Nat) : State.reset.mem.cell a = 0 := by
  simpa [State.reset_eq_constructed, constructed] using Memory.cell_ofImage [] a

/-- An image of no cells has no value outside WORD_RANGE, so R181 never refuses it. -/
theorem construct_nil (p : Params) : construct p [] = .ok (constructed p []) :=
  construct_ok_iff.mpr ⟨by simp, rfl⟩

/-- Settles O1: construction accepts the image of no cells, its memory reads 0 everywhere, and every other field is
the value that `State.reset` names. -/
theorem resetIsConstructionFromEmptyImage : Obligations.ResetIsConstructionFromEmptyImage := by
  unfold Obligations.ResetIsConstructionFromEmptyImage
  have hbuilt : construct Params.hardware [] = .ok State.reset := construct_nil Params.hardware
  exact ⟨hbuilt, rfl, rfl, rfl, rfl, rfl, rfl, State.reset_cell, rfl, rfl, rfl⟩

end Sys2Proof.Machine
end

section
/-! How one step touches memory: not at all, or by one store at the address `stepStoreAddr` names (spec/20_memory.md R42, R47). -/

namespace Sys2Proof.Machine

/-- A write target that resolves is the address its instruction stores to. -/
theorem storeAddr_of_targetAddr {i : Instr} {s : State} {d : Arg} {a : Int} (hd : target i = some d)
    (ha : TargetAddr s d a) : storeAddr i s = some a := by
  simp [storeAddr, hd, wa_ok_iff.mpr ha]

/-- A running step stores where the instruction it fetches does. -/
theorem stepStoreAddr_of_fetch {s : State} {i : Instr} (hs : s.status = .running) (hi : fetch s = .ok i) :
    stepStoreAddr s = storeAddr i s := by
  simp [stepStoreAddr, hs, hi]

/-- Every effect of a step on memory. -/
theorem step_next_mem {s t : State} (h : step s = .next t) :
    t.mem = s.mem ∨ ∃ (c : Nat) (v : Int), stepStoreAddr s = some (c : Int) ∧ t.mem = s.mem.store c v := by
  rcases step_next_iff.mp h with ⟨-, rfl⟩ | ⟨hs, i, hi, ht⟩
  · exact .inl rfl
  · rcases exec_next_mem ht with ⟨hm, -⟩ | ⟨d, c, v, hd, ⟨ha, -⟩, hm, -, -⟩
    · exact .inl hm
    · exact .inr ⟨c, v, (stepStoreAddr_of_fetch hs hi).trans (storeAddr_of_targetAddr hd ha), hm⟩

/-! ### The extent -/

@[simp] theorem constructed_extent (p : Params) (image : List Int) : (constructed p image).mem.extent = image.length := rfl

theorem Memory.extent_le_store (m : Memory) (a : Nat) (v : Int) : m.extent ≤ (m.store a v).extent := by
  rw [Memory.store_extent]
  exact Nat.le_max_left _ _

theorem step_extent_le {s t : State} (h : step s = .next t) : s.mem.extent ≤ t.mem.extent := by
  rcases step_next_mem h with hm | ⟨c, v, -, hm⟩
  · rw [hm]
  · rw [hm]; exact Memory.extent_le_store _ _ _

theorem memWrite_extent_le {s : State} {a v : Int} {m : Memory} (h : memWrite s a v = .ok m) :
    s.mem.extent ≤ m.extent := by
  obtain ⟨-, -, rfl⟩ := memWrite_ok_iff.mp h
  exact Memory.extent_le_store _ _ _

/-- Settles O7: a step and a write change the extent by a store alone, which never lowers it; taking a fault and
presenting input leave the memory as it is. -/
theorem extentNeverShrinks : Obligations.ExtentNeverShrinks := by
  unfold Obligations.ExtentNeverShrinks
  refine ⟨fun p image s h => ?_, fun _ _ => step_extent_le, fun _ _ _ _ => memWrite_extent_le,
    fun s f => by rw [takeFault_mem], fun s t inputs h => ?_⟩
  · obtain ⟨-, rfl⟩ := construct_ok_iff.mp h
    exact constructed_extent p image
  · obtain ⟨-, rfl⟩ := presentInput_ok_iff.mp h
    rw [State.withInq_mem]

/-! ### The cells no step has stored to -/

theorem constructed_cell_of_length_le (p : Params) {image : List Int} {a : Nat} (h : image.length ≤ a) :
    (constructed p image).mem.cell a = 0 := by
  have hcell : (constructed p image).mem.cell a = image.getD a 0 := Memory.cell_ofImage image a
  rw [hcell, List.getD_eq_default _ _ h]

/-- A step leaves every cell but the one it stores to. -/
theorem step_cell_of_not_stored {s t : State} {a : Nat} (h : step s = .next t) (ha : stepStoreAddr s ≠ some (a : Int)) :
    t.mem.cell a = s.mem.cell a := by
  rcases step_next_mem h with hm | ⟨c, v, hc, hm⟩
  · rw [hm]
  · have hne : a ≠ c := by rintro rfl; exact ha hc
    rw [hm, Memory.cell_store_other _ _ hne]

/-- The cell holds 0 at construction, and no event of the engine's life that `NeverStored` allows changes it. -/
theorem NeverStored.cell_eq_zero {p : Params} {image : List Int} {a : Nat} {s : State} (h : NeverStored p image a s)
    (hlen : image.length ≤ a) : s.mem.cell a = 0 := by
  induction h with
  | built s hs =>
    obtain ⟨-, rfl⟩ := construct_ok_iff.mp hs
    exact constructed_cell_of_length_le p hlen
  | presented s t inputs _ ht ih =>
    obtain ⟨-, rfl⟩ := presentInput_ok_iff.mp ht
    rwa [State.withInq_mem]
  | stepped s t _ ha ht ih => rw [step_cell_of_not_stored ht ha, ih]
  | faulted s f _ _ ih => rwa [takeFault_mem]

/-- Settles O8, by induction on the engine's life: the read at an address that is not negative answers the cell, which is
still 0. -/
theorem neverWrittenCellsReadZero : Obligations.NeverWrittenCellsReadZero := by
  unfold Obligations.NeverWrittenCellsReadZero
  intro p image a s h hlen
  refine memRead_ok_iff.mpr ⟨Int.natCast_nonneg a, ?_⟩
  rw [Int.toNat_natCast, h.cell_eq_zero hlen]

end Sys2Proof.Machine
end

section
/-! What a decoded instruction takes from the lowest two digits of its label (spec/30_encoding.md R63, R64, R72), and where its
cells lie (R60). -/

namespace Sys2Proof

theorem Opcode.number_injective : Function.Injective Opcode.number := by
  intro op op' h
  have hsome : some op = some op' := by rw [← opcodeOf_number op, h, opcodeOf_number op']
  exact Option.some.inj hsome

/-- The opcode of a decoded instruction is the one whose number is the lowest two digits of its label. -/
theorem decode_opcode_number {p : Params} {L : Int} {arg : Nat → Int} {i : Instr} (hi : decode p L arg = .ok i) :
    i.opcode.number = L.toNat % 100 := by
  obtain ⟨h, hh, rfl⟩ := decode_ok_iff.mp hi
  obtain ⟨-, hnum, -⟩ := decodeLabel_ok_iff.mp hh
  rw [Head.instr_opcode, hnum]

@[simp] theorem Head.instr_length (h : Head) (arg : Nat → Int) : (h.instr arg).length = h.op.length := by
  rw [Instr.length, Head.instr_opcode]

theorem Instr.args_length_add_one (i : Instr) : i.args.length + 1 = i.length := by
  cases i <;> rfl

/-- Argument `k + 1` of a decoded instruction is argument cell `k + 1` (R60, R68). -/
theorem Head.instr_args_getElem? {h : Head} {arg : Nat → Int} {k : Nat} (hk : k < (h.instr arg).args.length) :
    (h.instr arg).args[k]? = some (arg (k + 1)) := by
  rw [Head.instr_args, List.length_map, List.length_range] at hk
  simp [Head.instr_args, List.getElem?_range hk]

namespace Machine

/-- Settles O14: both opcodes have the number that the two labels share in their lowest two digits, and that number has one
opcode; the label's own decoding carries it. -/
theorem lengthComesFromTheOpcodeDigitsAlone : Obligations.LengthComesFromTheOpcodeDigitsAlone := by
  unfold Obligations.LengthComesFromTheOpcodeDigitsAlone
  refine ⟨fun p p' L L' arg arg' i i' hi hi' hmod => ?_, fun p L arg i hi => ?_⟩
  · have hop : i.opcode = i'.opcode := Opcode.number_injective (by
      rw [decode_opcode_number hi, decode_opcode_number hi', hmod])
    rw [Instr.length, Instr.length, hop]
  · obtain ⟨h, hh, rfl⟩ := decode_ok_iff.mp hi
    exact ⟨h, hh, Head.instr_length h arg⟩

/-- Settles O15: the fetched instruction is the decoded label at `ip` applied to the cells after it, so its arguments are
those cells in order. -/
theorem argumentsFollowTheLabel : Obligations.ArgumentsFollowTheLabel := by
  unfold Obligations.ArgumentsFollowTheLabel
  intro s i hi
  obtain ⟨-, hdecode⟩ := fetch_ok_iff.mp hi
  obtain ⟨h, hh, rfl⟩ := decode_ok_iff.mp hdecode
  refine ⟨Opcode.length_pos _, Opcode.length_le _, Instr.args_length_add_one _,
    ⟨h, hh, (Head.instr_opcode h s.argCell).symm⟩, fun k hk => ?_⟩
  have hcell : s.argCell (k + 1) = s.mem.cell (s.ip.toNat + 1 + k) := by
    rw [State.argCell, Nat.add_assoc, Nat.add_comm 1 k]
  rw [Head.instr_args_getElem? hk, hcell]

end Machine

end Sys2Proof
end

section
/-! How one step touches the output stream: an OUT appends one value, every other step leaves the stream (spec/42_io.md R111, R113). -/

namespace Sys2Proof.Machine

/-- A running engine performs the instruction it fetches (spec/40_engine.md R91). -/
theorem step_eq_exec {s : State} {i : Instr} (hs : s.status = .running) (hi : fetch s = .ok i) : step s = exec i s := by
  simp [step, hs, hi]

/-- The stream and the status after an OUT that completes. -/
theorem exec_out_next_ports {x : Arg} {s t : State} (h : exec (.out x) s = .next t) :
    ∃ v, Reads s x v ∧ t.out = s.out ++ [v] ∧ t.status = s.status := by
  obtain ⟨-, v, hv, rfl⟩ := execOut_next_iff.mp h
  exact ⟨v, hv, rfl, rfl⟩

theorem exec_next_out_eq {i : Instr} {s t : State} (h : exec i s = .next t) (hi : ∀ x, i ≠ .out x) : t.out = s.out := by
  rcases exec_next_ports h with ⟨hout, -, -⟩ | ⟨x, -, hx, -, -, -⟩ | ⟨-, rfl⟩
  · exact hout
  · exact absurd hx (hi x)
  · exact State.withStatus_out s .halted

/-- A halted engine answers itself (R96), so a step leaves the stream unless it fetches an OUT. -/
theorem step_next_out_eq {s t : State} (h : step s = .next t) (hne : ∀ x, fetch s ≠ .ok (.out x)) : t.out = s.out := by
  rcases step_next_iff.mp h with ⟨-, rfl⟩ | ⟨-, i, hi, hexec⟩
  · rfl
  · exact exec_next_out_eq hexec fun x hx => hne x (hx ▸ hi)

/-- Settles O24: a completed OUT appends the one value its operand resolves to and keeps the engine Running, so R80's
outcome is that output; every other step leaves the stream. -/
theorem outputStreamRecordsOutAlone : Obligations.OutputStreamRecordsOutAlone := by
  unfold Obligations.OutputStreamRecordsOutAlone
  refine ⟨fun s t h hs x hx => ?_, fun s t h hne => step_next_out_eq h hne⟩
  have hexec : exec (.out x) s = .next t := (step_eq_exec hs hx).symm.trans h
  obtain ⟨v, hv, hout, hstatus⟩ := exec_out_next_ports hexec
  have hrunning : t.status ≠ .halted := by simp [hstatus, hs]
  exact ⟨v, hv, hout, stepResult_of_output h hrunning hout⟩

end Sys2Proof.Machine
end

section
/-! The Relative mode as an operand mode: what its read and its target resolve to, and the memory's answer at, beyond and
below the extent (spec/45_relative_base.md R141, 20_memory.md R43, R44, R45). -/

namespace Sys2Proof.Machine

/-! ### The relations of operand resolution at the Relative mode -/

theorem reads_relative_iff {s : State} {raw v : Int} : Reads s ⟨.relative, raw⟩ v ↔
    s.params.inRange (s.rb + raw) = true ∧ 0 ≤ s.rb + raw ∧ v = s.mem.cell (s.rb + raw).toNat :=
  Iff.rfl

theorem readFaults_relative_iff {s : State} {raw : Int} {f : Fault} : ReadFaults s ⟨.relative, raw⟩ f ↔
    (s.params.inRange (s.rb + raw) = false ∧ f = .arithmeticOverflow (s.rb + raw) s.ip s.label) ∨
    (s.params.inRange (s.rb + raw) = true ∧ s.rb + raw < 0 ∧
      f = .addressFault (s.rb + raw) .read s.ip (some s.label)) :=
  Iff.rfl

theorem targetAddr_relative_iff {s : State} {raw a : Int} :
    TargetAddr s ⟨.relative, raw⟩ a ↔ s.params.inRange (s.rb + raw) = true ∧ a = s.rb + raw :=
  Iff.rfl

/-! ### Memory at the extent -/

theorem Memory.cell_of_extent_le {m : Memory} {a : Nat} (h : m.extent ≤ a) : m.cell a = 0 := by
  rw [Memory.cell, if_pos h]

/-- A write that succeeds leaves its address inside the extent (R44). -/
theorem memWrite_lt_extent {s : State} {a v : Int} {m : Memory} (h : memWrite s a v = .ok m) : a < m.extent := by
  obtain ⟨ha, -, rfl⟩ := memWrite_ok_iff.mp h
  rw [Memory.store_extent]
  omega

/-! ### R141 -/

/-- Digit 2 is no bad digit of any slot: neither strictness parameter touches it. -/
theorem slotMode_relative {p : Params} {L i : Nat} {op : Opcode} (hi : i ≤ op.nargs) (hd : digit L (i + 1) = 2) :
    slotMode p L op i = .ok .relative :=
  slotMode_digit hi hd fun _ _ => by decide

/-- A Relative read at or beyond the extent: the address is not negative, and its cell is zero fill. -/
theorem reads_relative_of_extent_le {s : State} {raw : Int} (hr : s.params.inRange (s.rb + raw) = true)
    (he : (s.mem.extent : Int) ≤ s.rb + raw) : Reads s ⟨.relative, raw⟩ 0 :=
  have hcell : s.mem.cell (s.rb + raw).toNat = 0 := Memory.cell_of_extent_le (by omega)
  reads_relative_iff.mpr ⟨hr, by omega, hcell.symm⟩

/-- Settles O36: the read and the target resolve through the one checked sum, and what happens at that address is what
`memRead` and `memWrite` answer at any address. -/
theorem relativeAddressing : Obligations.RelativeAddressing := by
  unfold Obligations.RelativeAddressing
  refine ⟨fun p L i op => slotMode_relative, fun s raw hr h0 => ?read, fun s raw hr => ?target,
    fun s raw hr => ⟨?readOverflow, ?targetOverflow⟩, fun s raw hr he => ?readBeyond,
    fun s raw v m _ hm => memWrite_lt_extent hm, fun s raw hr hneg => ⟨?readNegative, fun v => ?writeNegative⟩⟩
  case read => exact rd_ok_iff.mpr (reads_relative_iff.mpr ⟨hr, h0, rfl⟩)
  case target => exact wa_ok_iff.mpr (targetAddr_relative_iff.mpr ⟨hr, rfl⟩)
  case readOverflow => exact rd_error_iff.mpr (readFaults_relative_iff.mpr (.inl ⟨hr, rfl⟩))
  case targetOverflow => exact wa_error_iff.mpr ⟨rfl, hr, rfl⟩
  case readBeyond => exact rd_ok_iff.mpr (reads_relative_of_extent_le hr he)
  case readNegative => exact rd_error_iff.mpr (readFaults_relative_iff.mpr (.inr ⟨hr, hneg, rfl⟩))
  case writeNegative => exact memWrite_error_iff.mpr (.inl ⟨hneg, rfl⟩)

end Sys2Proof.Machine
end

section
/-! The labels without an opcode (spec/30_encoding.md R62, R63) and what the decoder answers for them (R71). -/

namespace Sys2Proof

/-- The labels of R151: negative, or with a number in the lowest two digits that R63 gives to no opcode. -/
def NoOpcode (L : Int) : Prop :=
  L < 0 ∨ L.toNat % 100 = 0 ∨ (10 ≤ L.toNat % 100 ∧ L.toNat % 100 ≤ 98)

theorem noOpcode_iff_opcodeOf {L : Int} : NoOpcode L ↔ L < 0 ∨ opcodeOf (L.toNat % 100) = none := by
  have hlt : L.toNat % 100 < 100 := Nat.mod_lt _ (by decide)
  rw [NoOpcode, opcodeOf_eq_none]
  omega

open Machine in
/-- A label is Unknown exactly where it has no opcode: a bad digit of a used slot is another error. -/
theorem decodeLabel_unknown_iff {p : Params} {L L' : Int} :
    decodeLabel p L = .error (.unknown L') ↔ NoOpcode L ∧ L' = L := by
  rw [noOpcode_iff_opcodeOf, decodeLabel]
  by_cases hneg : L < 0
  · simp [hneg, eq_comm]
  · rw [if_neg hneg]
    cases hop : opcodeOf (L.toNat % 100) with
    | none => simp [eq_comm]
    | some op =>
      simp only [bind_error_iff, slotMode_error_iff, pure_ne_error, hneg, reduceCtorEq, and_false, exists_false, or_self,
        false_and]

namespace Machine

theorem decodeErrorFault_eq_decodeFault_iff {ip j L : Int} {e : DecodeError} :
    decodeErrorFault ip e = .decodeFault j L ↔ j = ip ∧ e = .unknown L := by
  cases e <;> simp [decodeErrorFault, eq_comm]

end Machine

end Sys2Proof
end

section
/-! Where each fault of a running engine's step comes from (spec/60_exceptions.md R150 to R153): the fetch at a negative `ip`, the
label, an operand, or the input queue. -/

namespace Sys2Proof.Machine

/-- A fault of the fetch is the fault of the step (spec/40_engine.md R91). -/
theorem step_of_fetch_error {s : State} {f : Fault} (hs : s.status = .running) (hf : fetch s = .error f) :
    step s = .fault f :=
  step_fault_iff.mpr (.inr ⟨hs, .inl hf⟩)

/-- Every source of a running step's fault. -/
theorem step_fault_cases {s : State} {f : Fault} (hs : s.status = .running) (h : step s = .fault f) :
    (s.ip < 0 ∧ f = .addressFault s.ip .fetch s.ip none) ∨
    (0 ≤ s.ip ∧ ∃ e, decodeLabel s.params s.label = .error e ∧ f = decodeErrorFault s.ip e) ∨
    OperandFault s f ∨
    (∃ d, fetch s = .ok (.inp d) ∧ s.inq = [] ∧ f = .inputUnderflow s.ip s.label) := by
  rcases step_fault_iff.mp h with hfaulted | ⟨-, hfetch | ⟨i, hi, hexec⟩⟩
  · rw [hs] at hfaulted; cases hfaulted
  · rcases fetch_error_iff.mp hfetch with hneg | ⟨h0, e, he, hf⟩
    · exact .inl hneg
    · exact .inr (.inl ⟨h0, e, decode_error_iff.mp he, hf⟩)
  · rcases exec_fault_cases hexec with hop | ⟨d, rfl, hq, hf⟩
    · exact .inr (.inr (.inl hop))
    · exact .inr (.inr (.inr ⟨d, hi, hq, hf⟩))

/-! ### DecodeFault (R151) -/

theorem not_operandFault_decodeFault {s : State} {j L : Int} : ¬ OperandFault s (.decodeFault j L) := by
  simp [OperandFault]

/-- A step raises DecodeFault where it fetches a label without an opcode, and the record is that of the step. -/
theorem step_decodeFault_iff {s : State} {j L : Int} (hs : s.status = .running) :
    step s = .fault (.decodeFault j L) ↔ 0 ≤ s.ip ∧ NoOpcode s.label ∧ j = s.ip ∧ L = s.label := by
  constructor
  · intro h
    rcases step_fault_cases hs h with ⟨-, hf⟩ | ⟨h0, e, he, hf⟩ | hop | ⟨d, -, -, hf⟩
    · cases hf
    · obtain ⟨hj, rfl⟩ := decodeErrorFault_eq_decodeFault_iff.mp hf.symm
      obtain ⟨hno, hL⟩ := decodeLabel_unknown_iff.mp he
      exact ⟨h0, hno, hj, hL⟩
    · exact absurd hop not_operandFault_decodeFault
    · cases hf
  · rintro ⟨h0, hno, rfl, rfl⟩
    have hdecode : decode s.params s.label s.argCell = .error (.unknown s.label) :=
      decode_error_iff.mpr (decodeLabel_unknown_iff.mpr ⟨hno, rfl⟩)
    exact step_of_fetch_error hs (fetch_error_iff.mpr (.inr ⟨h0, _, hdecode, rfl⟩))

/-- The label that a fetch at or beyond the extent reads (spec/20_memory.md R43). -/
theorem State.label_of_extent_le {s : State} (h : (s.mem.extent : Int) ≤ s.ip) : s.label = 0 :=
  Memory.cell_of_extent_le (by omega)

/-- Settles O37: the step's DecodeFault is the Unknown label of its fetch; beyond the extent that label is 0, which has
no opcode. -/
theorem decodeFaultExactlyOnUnknownLabels : Obligations.DecodeFaultExactlyOnUnknownLabels := by
  unfold Obligations.DecodeFaultExactlyOnUnknownLabels
  refine ⟨fun s hs h0 => ⟨?raisedOnlyThere, fun hno => ?raisedThere⟩, fun s j L hs h => ?record, fun s hs hx => ?beyond⟩
  case raisedOnlyThere =>
    rintro ⟨j, L, h⟩
    obtain ⟨-, hno, -, -⟩ := (step_decodeFault_iff hs).mp h
    exact hno
  case raisedThere => exact ⟨s.ip, s.label, (step_decodeFault_iff hs).mpr ⟨h0, hno, rfl, rfl⟩⟩
  case record =>
    obtain ⟨-, -, hj, hL⟩ := (step_decodeFault_iff hs).mp h
    exact ⟨hj, hL⟩
  case beyond =>
    have hlabel : s.label = 0 := State.label_of_extent_le hx
    have hno : NoOpcode s.label := by rw [hlabel]; exact .inr (.inl rfl)
    exact (step_decodeFault_iff hs).mpr ⟨by omega, hno, rfl, hlabel.symm⟩

/-! ### InputUnderflow (R152) -/

theorem not_operandFault_inputUnderflow {s : State} {j L : Int} : ¬ OperandFault s (.inputUnderflow j L) := by
  simp [OperandFault]

theorem decodeErrorFault_ne_inputUnderflow {ip j L : Int} {e : DecodeError} :
    decodeErrorFault ip e ≠ .inputUnderflow j L := by
  cases e <;> simp [decodeErrorFault]

/-- The queue is looked at after the advance and before the destination (spec/42_io.md R110, decision D13). -/
theorem exec_inp_of_inq_nil {s : State} {d : Arg} (hfit : AdvanceFits s 2) (hq : s.inq = []) :
    exec (.inp d) s = .fault (.inputUnderflow s.ip s.label) := by
  have hadvance : advance s .inp = .ok (s.ip + 2) := advance_ok_iff.mpr ⟨hfit, rfl⟩
  have htake : takeInput s = .error (.inputUnderflow s.ip s.label) := takeInput_error_iff.mpr ⟨hq, rfl⟩
  exact conclude_fault_iff.mpr (bind_error_iff.mpr (.inr ⟨_, hadvance, bind_error_iff.mpr (.inl htake)⟩))

theorem exec_inputUnderflow {i : Instr} {s : State} {j L : Int} (h : exec i s = .fault (.inputUnderflow j L)) :
    s.inq = [] ∧ j = s.ip ∧ L = s.label ∧ ∃ d, i = .inp d := by
  rcases exec_fault_cases h with hop | ⟨d, hi, hq, hf⟩
  · exact absurd hop not_operandFault_inputUnderflow
  · cases hf; exact ⟨hq, rfl, rfl, d, hi⟩

theorem step_inputUnderflow {s : State} {j L : Int} (hs : s.status = .running)
    (h : step s = .fault (.inputUnderflow j L)) :
    s.inq = [] ∧ j = s.ip ∧ L = s.label ∧ ∃ d, fetch s = .ok (.inp d) := by
  rcases step_fault_cases hs h with ⟨-, hf⟩ | ⟨-, e, -, hf⟩ | hop | ⟨d, hi, hq, hf⟩
  · cases hf
  · exact absurd hf.symm decodeErrorFault_ne_inputUnderflow
  · exact absurd hop not_operandFault_inputUnderflow
  · cases hf; exact ⟨hq, rfl, rfl, d, hi⟩

/-- Settles O38: an IN whose advance fits finds the queue empty before anything else can fault, and no other part of a step
raises the fault. -/
theorem inputUnderflowExactlyOnEmptyQueue : Obligations.InputUnderflowExactlyOnEmptyQueue := by
  unfold Obligations.InputUnderflowExactlyOnEmptyQueue
  exact ⟨fun s d hfit hq => exec_inp_of_inq_nil hfit hq,
    fun s d hs hi hfit hq => (step_eq_exec hs hi).trans (exec_inp_of_inq_nil hfit hq),
    fun s i j L h => exec_inputUnderflow h, fun s j L hs h => step_inputUnderflow hs h⟩

/-! ### AddressFault (R153) -/

theorem decodeErrorFault_ne_addressFault {ip a j : Int} {k : Access} {l : Option Int} {e : DecodeError} :
    decodeErrorFault ip e ≠ .addressFault a k j l := by
  cases e <;> simp [decodeErrorFault]

/-- An address fault of an operand or a destination has a label: it is no fetch. -/
theorem operandFault_addressFault_iff {s : State} {a j : Int} {k : Access} {l : Option Int} :
    OperandFault s (.addressFault a k j l) ↔ a < 0 ∧ k ≠ .fetch ∧ j = s.ip ∧ l = some s.label := by
  simp [OperandFault]

/-- Every address fault of a running step is the fetch's own or one of an operand or a destination. -/
theorem step_addressFault {s : State} {a j : Int} {k : Access} {l : Option Int} (hs : s.status = .running)
    (h : step s = .fault (.addressFault a k j l)) :
    a < 0 ∧ j = s.ip ∧ ((k = .fetch ∧ l = none ∧ a = s.ip) ∨ (k ≠ .fetch ∧ l = some s.label)) := by
  rcases step_fault_cases hs h with ⟨hneg, hf⟩ | ⟨-, e, -, hf⟩ | hop | ⟨d, -, -, hf⟩
  · cases hf; exact ⟨hneg, rfl, .inl ⟨rfl, rfl, rfl⟩⟩
  · exact absurd hf.symm decodeErrorFault_ne_addressFault
  · obtain ⟨hneg, hk, hj, hl⟩ := operandFault_addressFault_iff.mp hop
    exact ⟨hneg, hj, .inr ⟨hk, hl⟩⟩
  · cases hf

/-- Settles O39: the fetch, the read and the write each check their address first, and every address fault of a step comes
from one of those checks. -/
theorem addressFaultExactlyOnNegativeAddresses : Obligations.AddressFaultExactlyOnNegativeAddresses := by
  unfold Obligations.AddressFaultExactlyOnNegativeAddresses
  exact ⟨fun s hs hneg => step_of_fetch_error hs (fetch_error_iff.mpr (.inl ⟨hneg, rfl⟩)),
    fun s a hneg => memRead_error_iff.mpr ⟨hneg, rfl⟩,
    fun s a v hneg => memWrite_error_iff.mpr (.inl ⟨hneg, rfl⟩),
    fun s a j k l hs h => step_addressFault hs h⟩

end Sys2Proof.Machine
end

section
/-! The decimal fields of a label (spec/30_encoding.md R61), and the modes an instruction's label is assembled from (R65, R66,
R67, R74). -/

namespace Sys2Proof

/-! ### The fields of a label -/

/-- The label `L` has the number of `op` in its lowest two digits and the mode digits `A`, `B`, `C` above them (R61). -/
structure HasFields (L : Nat) (op : Opcode) (A B C : Nat) : Prop where
  number_eq : L % 100 = op.number
  digit_one : digit L 2 = A
  digit_two : digit L 3 = B
  digit_three : digit L 4 = C

theorem hasFields_of_digits (op : Opcode) {A B C : Nat} (rest : Nat) (hA : A < 10) (hB : B < 10) (hC : C < 10) :
    HasFields (op.number + 100 * A + 1000 * B + 10000 * C + 100000 * rest) op A B C := by
  have hO : op.number < 100 := op.number_lt
  constructor
  case number_eq => omega
  all_goals simp only [digit, Nat.reducePow]; omega

theorem labelOf_nonneg (op : Opcode) (A B C : Nat) : 0 ≤ labelOf op A B C :=
  Int.natCast_nonneg _

theorem Mode.digit_lt_ten (m : Mode) : m.digit < 10 := by
  have := m.digit_lt
  omega

/-! ### The modes of an instruction -/

/-- The modes of the used slots, in slot order: beside `Instr.args`, what the assembler encodes. -/
def Instr.modes : Instr → List Mode
  | .add x y d | .mul x y d | .lt x y d | .eq x y d => [x.mode, y.mode, d.mode]
  | .jt x y | .jf x y => [x.mode, y.mode]
  | .inp x | .out x | .arb x => [x.mode]
  | .hlt => []

/-- The mode of slot `k + 1`: Position where the opcode does not use it (R66). -/
def Instr.mode (i : Instr) (k : Nat) : Mode := i.modes.getD k .position

theorem Instr.modes_length (i : Instr) : i.modes.length = i.opcode.nargs := by
  cases i <;> rfl

theorem Instr.mode_unused {i : Instr} {k : Nat} (h : i.opcode.nargs ≤ k) : i.mode k = .position :=
  List.getD_eq_default _ _ (i.modes_length ▸ h)

theorem Instr.label_eq_labelOf (i : Instr) : i.label = labelOf i.opcode (i.mode 0).digit (i.mode 1).digit (i.mode 2).digit := by
  cases i <;> rfl

/-- The opcode, the modes and the assembled arguments make the instruction again (R60). -/
theorem Instr.instr_of_modes (i : Instr) (rest : List Int) :
    (Head.mk i.opcode (i.mode 0) (i.mode 1) (i.mode 2)).instr (fun k => (encode i ++ rest).getD k 0) = i := by
  cases i <;> rfl

open Machine in
theorem Instr.target_of_writeSlot {i : Instr} {k : Nat} (h : i.opcode.writeSlot = some (k + 1)) :
    ∃ d, target i = some d ∧ d.mode = i.mode k := by
  cases i <;> cases h <;> exact ⟨_, rfl, rfl⟩

open Machine in
theorem Instr.wfWrite_target {p : Params} {i : Instr} {d : Arg} (h : i.wf p = true) (hd : target i = some d) :
    d.wfWrite p = true := by
  cases i <;> cases hd
  case inp.refl => exact h
  all_goals exact (Bool.and_eq_true_iff.mp h).2

theorem Arg.mode_ne_immediate {p : Params} {d : Arg} (h : d.wfWrite p = true) (hp : p.strictWriteImmediate = true) :
    d.mode ≠ .immediate := by
  simp only [Arg.wfWrite, hp, Bool.and_eq_true] at h
  simpa using h.2

/-- The mode digit the assembler writes for a slot, used or not, is read back as that slot's mode. -/
theorem slotMode_of_wf {p : Params} {i : Instr} (hi : i.wf p = true) {L k : Nat} (hd : digit L (k + 2) = (i.mode k).digit) :
    slotMode p L i.opcode (k + 1) = .ok (i.mode k) := by
  by_cases hu : i.opcode.nargs ≤ k
  · rw [slotMode_unused (by omega), Instr.mode_unused hu]
  · refine slotMode_digit (by omega) hd fun hw hp => ?_
    obtain ⟨d, htarget, hmode⟩ := Instr.target_of_writeSlot hw
    exact hmode ▸ Arg.mode_ne_immediate (Instr.wfWrite_target hi htarget) hp

open Machine in
/-- The assembler's label decodes to the opcode and the modes it was assembled from. -/
theorem decodeLabel_label {p : Params} {i : Instr} (hi : i.wf p = true) :
    decodeLabel p i.label = .ok ⟨i.opcode, i.mode 0, i.mode 1, i.mode 2⟩ := by
  obtain ⟨hnum, h1, h2, h3⟩ :=
    hasFields_of_digits i.opcode 0 (i.mode 0).digit_lt_ten (i.mode 1).digit_lt_ten (i.mode 2).digit_lt_ten
  rw [Instr.label_eq_labelOf]
  exact decodeLabel_ok_iff.mpr
    ⟨labelOf_nonneg _ _ _ _, hnum, slotMode_of_wf hi h1, slotMode_of_wf hi h2, slotMode_of_wf hi h3⟩

namespace Machine

/-- Settles O9: the label gives back the opcode and the modes, the cells after it are the raw arguments, and the instruction's
length is that of its cells. -/
theorem decodeEncodeRoundTrip : Obligations.DecodeEncodeRoundTrip := by
  unfold Obligations.DecodeEncodeRoundTrip
  intro p i rest hi
  have hdecode : decode p i.label (fun k => (encode i ++ rest).getD k 0) = .ok i :=
    decode_ok_iff.mpr ⟨_, decodeLabel_label hi, (i.instr_of_modes rest).symm⟩
  have hlength : (encode i).length = i.length := i.args_length_add_one
  exact bind_ok_iff.mpr ⟨i, hdecode, by rw [List.drop_left' hlength]; rfl⟩

end Machine

end Sys2Proof
end

section
/-! Which label is an error and which slot is reported (spec/30_encoding.md R62, R65, R67, R70), and the smallest label (R74). -/

namespace Sys2Proof

open Machine

/-! ### The first bad slot -/

/-- `slot` is the first slot of the label `L` whose digit is bad for the opcode: the one R70 reports (decision D13). -/
structure FirstBad (p : Params) (op : Opcode) (L slot : Nat) : Prop where
  pos : 1 ≤ slot
  bad : BadDigit p op slot (digit L (slot + 1))
  good_below : ∀ k, 1 ≤ k → k < slot → ¬ BadDigit p op k (digit L (k + 1))

theorem Opcode.nargs_le_three (op : Opcode) : op.nargs ≤ 3 := by cases op <;> decide

theorem FirstBad.unique {p : Params} {op : Opcode} {L slot slot' : Nat} (h : FirstBad p op L slot) (h' : FirstBad p op L slot') :
    slot = slot' := by
  rcases Nat.lt_trichotomy slot slot' with hlt | heq | hgt
  · exact absurd h.bad (h'.good_below slot h.pos hlt)
  · exact heq
  · exact absurd h'.bad (h.good_below slot' h'.pos hgt)

theorem not_badDigit_of_slotMode {p : Params} {L slot : Nat} {op : Opcode} {m : Mode} (h : slotMode p L op slot = .ok m) :
    ¬ BadDigit p op slot (digit L (slot + 1)) := by
  intro hb
  rw [slotMode_error_iff.mpr ⟨hb, rfl⟩] at h
  cases h

theorem not_badDigit_of_decodeLabel {p : Params} {L : Int} {h : Head} (hh : decodeLabel p L = .ok h) {slot : Nat}
    (hpos : 1 ≤ slot) : ¬ BadDigit p h.op slot (digit L.toNat (slot + 1)) := by
  obtain ⟨-, -, h1, h2, h3⟩ := decodeLabel_ok_iff.mp hh
  intro hb
  have hslot : slot ≤ 3 := hb.1.trans h.op.nargs_le_three
  obtain rfl | rfl | rfl : slot = 1 ∨ slot = 2 ∨ slot = 3 := by omega
  · exact not_badDigit_of_slotMode h1 hb
  · exact not_badDigit_of_slotMode h2 hb
  · exact not_badDigit_of_slotMode h3 hb

theorem not_noOpcode_of_number {L : Int} {op : Opcode} (h0 : 0 ≤ L) (hop : L.toNat % 100 = op.number) : ¬ NoOpcode L := by
  rw [noOpcode_iff_opcodeOf, hop, opcodeOf_number]
  simp [h0]

/-- A decoded label has the opcode its lowest two digits name. -/
theorem op_of_decodeLabel {p : Params} {L : Int} {op : Opcode} {h : Head} (hop : L.toNat % 100 = op.number)
    (hh : decodeLabel p L = .ok h) : h.op = op := by
  obtain ⟨-, hnum, -⟩ := decodeLabel_ok_iff.mp hh
  exact Opcode.number_injective (hnum.symm.trans hop)

theorem decodeLabel_invalidMode_cases {p : Params} {L L' : Int} {slot d : Nat}
    (h : decodeLabel p L = .error (.invalidMode L' slot d)) :
    0 ≤ L ∧ L' = L ∧ d = digit L.toNat (slot + 1) ∧ ∃ op : Opcode, L.toNat % 100 = op.number ∧ FirstBad p op L.toNat slot := by
  rcases decodeLabel_error_cases h with he | ⟨h0, op, slot', hop, hpos, he, hbad, hgood⟩
  · cases he
  · cases he
    exact ⟨h0, rfl, rfl, op, hop, hpos, hbad, hgood⟩

/-- The first bad slot is the one reported. -/
theorem FirstBad.decodeLabel_eq {p : Params} {L : Int} {op : Opcode} {slot : Nat} (hf : FirstBad p op L.toNat slot) (h0 : 0 ≤ L)
    (hop : L.toNat % 100 = op.number) : decodeLabel p L = .error (.invalidMode L slot (digit L.toNat (slot + 1))) := by
  cases hd : decodeLabel p L with
  | ok h =>
    have hbad : BadDigit p h.op slot (digit L.toNat (slot + 1)) := op_of_decodeLabel hop hd ▸ hf.bad
    exact absurd hbad (not_badDigit_of_decodeLabel hd hf.pos)
  | error e =>
    cases e with
    | unknown L' => exact absurd (decodeLabel_unknown_iff.mp hd).1 (not_noOpcode_of_number h0 hop)
    | invalidMode L' slot' d =>
      obtain ⟨-, rfl, rfl, op', hop', hf'⟩ := decodeLabel_invalidMode_cases hd
      obtain rfl : op = op' := Opcode.number_injective (hop.symm.trans hop')
      rw [hf.unique hf']

/-- A label with an opcode and no bad digit decodes. -/
theorem decodeLabel_ok_of_good {p : Params} {L : Int} {op : Opcode} (h0 : 0 ≤ L) (hop : L.toNat % 100 = op.number)
    (hg : ∀ slot, 1 ≤ slot → ¬ BadDigit p op slot (digit L.toNat (slot + 1))) : ∃ h, decodeLabel p L = .ok h ∧ h.op = op := by
  cases hd : decodeLabel p L with
  | ok h => exact ⟨h, rfl, op_of_decodeLabel hop hd⟩
  | error e =>
    cases e with
    | unknown L' => exact absurd (decodeLabel_unknown_iff.mp hd).1 (not_noOpcode_of_number h0 hop)
    | invalidMode L' slot d =>
      obtain ⟨-, -, -, op', hop', hf⟩ := decodeLabel_invalidMode_cases hd
      obtain rfl : op = op' := Opcode.number_injective (hop.symm.trans hop')
      exact absurd hf.bad (hg slot hf.pos)

/-! ### Labels given by their fields -/

section
variable {p : Params} {op : Opcode} {L A B C : Nat}

theorem HasFields.firstBad_one (h : HasFields L op A B C) (hA : BadDigit p op 1 A) : FirstBad p op L 1 :=
  ⟨le_rfl, h.digit_one ▸ hA, fun k _ _ => by omega⟩

theorem HasFields.firstBad_two (h : HasFields L op A B C) (hA : ¬ BadDigit p op 1 A) (hB : BadDigit p op 2 B) :
    FirstBad p op L 2 := by
  refine ⟨by decide, h.digit_two ▸ hB, fun k _ _ => ?_⟩
  obtain rfl : k = 1 := by omega
  exact h.digit_one ▸ hA

theorem HasFields.firstBad_three (h : HasFields L op A B C) (hA : ¬ BadDigit p op 1 A) (hB : ¬ BadDigit p op 2 B)
    (hC : BadDigit p op 3 C) : FirstBad p op L 3 := by
  refine ⟨by decide, h.digit_three ▸ hC, fun k _ _ => ?_⟩
  obtain rfl | rfl : k = 1 ∨ k = 2 := by omega
  · exact h.digit_one ▸ hA
  · exact h.digit_two ▸ hB

theorem HasFields.decodeLabel_ok (h : HasFields L op A B C) (hA : ¬ BadDigit p op 1 A) (hB : ¬ BadDigit p op 2 B)
    (hC : ¬ BadDigit p op 3 C) : ∃ h, decodeLabel p (L : Int) = .ok h ∧ h.op = op := by
  refine decodeLabel_ok_of_good (Int.natCast_nonneg L) h.number_eq fun slot hpos hb => ?_
  have hslot : slot ≤ 3 := hb.1.trans op.nargs_le_three
  obtain rfl | rfl | rfl : slot = 1 ∨ slot = 2 ∨ slot = 3 := by omega
  · exact hA (h.digit_one ▸ hb)
  · exact hB (h.digit_two ▸ hb)
  · exact hC (h.digit_three ▸ hb)

theorem HasFields.decodeLabel_firstBad (h : HasFields L op A B C) {slot : Nat} (hf : FirstBad p op L slot) :
    decodeLabel p (L : Int) = .error (.invalidMode L slot (digit L (slot + 1))) :=
  FirstBad.decodeLabel_eq (L := (L : Int)) hf (Int.natCast_nonneg L) h.number_eq

end

/-- An admitted digit selects Immediate, Relative, or for 0 and 3 to 9 Position (decision D7). -/
theorem mode_of_digitMode {p : Params} {L slot d : Nat} {op : Opcode} {m : Mode} (h : digitMode p L op slot d = .ok m) :
    m = (if d = 1 then .immediate else if d = 2 then .relative else .position) := by
  unfold digitMode at h
  split at h
  · cases h; rfl
  · split at h <;> cases h
    rfl
  · cases h; rfl
  · next h1 h2 =>
    split at h <;> cases h
    rw [if_neg h1, if_neg h2]

theorem slotMode_used_mode {p : Params} {L slot : Nat} {op : Opcode} {m : Mode} (h : slotMode p L op slot = .ok m)
    (hu : slot ≤ op.nargs) : m = (if digit L (slot + 1) = 1 then .immediate else if digit L (slot + 1) = 2 then .relative
      else .position) := by
  exact mode_of_digitMode (slotMode_used hu ▸ h)

theorem slotMode_unused_mode {p : Params} {L slot : Nat} {op : Opcode} {m : Mode} (h : slotMode p L op slot = .ok m)
    (hu : op.nargs < slot) : m = .position := by
  rw [slotMode_unused hu] at h
  cases h
  rfl

/-- The digit the assembler would write for a decoded slot is at most the slot's own. -/
theorem digit_le_of_slotMode {p : Params} {L slot : Nat} {op : Opcode} {m : Mode} (h : slotMode p L op slot = .ok m) :
    m.digit ≤ digit L (slot + 1) := by
  by_cases hu : slot ≤ op.nargs
  · rw [slotMode_used_mode h hu]
    split_ifs with h1 h2
    · exact h1.ge
    · exact h2.ge
    · exact Nat.zero_le _
  · rw [slotMode_unused_mode h (by omega)]
    exact Nat.zero_le _

theorem labelOf_le {L : Int} {op : Opcode} {A B C : Nat} (h0 : 0 ≤ L) (hop : L.toNat % 100 = op.number) (hA : A ≤ digit L.toNat 2)
    (hB : B ≤ digit L.toNat 3) (hC : C ≤ digit L.toNat 4) : labelOf op A B C ≤ L := by
  simp only [digit, Nat.reducePow] at hA hB hC
  simp only [labelOf]
  omega

/-- The assembler writes no more digits than a decoded head has modes: 0 for every unused slot. -/
theorem Head.label_instr_le (h : Head) (arg : Nat → Int) :
    (h.instr arg).label ≤ labelOf h.op h.m1.digit h.m2.digit h.m3.digit := by
  obtain ⟨op, m1, m2, m3⟩ := h
  cases op <;> simp only [Head.instr, Instr.label, Instr.opcode, labelOf] <;> omega

namespace Machine

/-- Settles O10: the two grounds of an Unknown label are R62's and R63's. -/
theorem unknownLabelsAreExactlyTheUndefinedOnes : Obligations.UnknownLabelsAreExactlyTheUndefinedOnes := by
  unfold Obligations.UnknownLabelsAreExactlyTheUndefinedOnes
  intro p L
  exact decodeLabel_unknown_iff.trans (and_iff_left rfl)

/-- Settles O11: no bad digit, so the label decodes, and each slot's mode is that of its digit, or Position where unused. -/
theorem labelFieldsSelectOpcodeAndModes : Obligations.LabelFieldsSelectOpcodeAndModes := by
  unfold Obligations.LabelFieldsSelectOpcodeAndModes
  intro p op A B C rest hA hB hC gA gB gC
  have hfields := hasFields_of_digits op rest hA hB hC
  obtain ⟨h, hh, rfl⟩ := hfields.decodeLabel_ok gA gB gC
  obtain ⟨-, -, h1, h2, h3⟩ := decodeLabel_ok_iff.mp hh
  refine ⟨h, hh, rfl, fun hu => ?_, fun hu => ?_, fun hu => ?_,
    slotMode_unused_mode h1, slotMode_unused_mode h2, slotMode_unused_mode h3⟩
  · rw [slotMode_used_mode h1 hu, Int.toNat_natCast, hfields.digit_one]
  · rw [slotMode_used_mode h2 hu, Int.toNat_natCast, hfields.digit_two]
  · rw [slotMode_used_mode h3 hu, Int.toNat_natCast, hfields.digit_three]

/-- Settles O12: the three error clauses are the three places of the first bad slot. -/
theorem strictnessReportsTheFirstBadSlot : Obligations.StrictnessReportsTheFirstBadSlot := by
  unfold Obligations.StrictnessReportsTheFirstBadSlot
  intro p op A B C rest hA hB hC L
  have hfields : HasFields L op A B C := hasFields_of_digits op rest hA hB hC
  refine ⟨fun bA => ?_, fun gA bB => ?_, fun gA gB bC => ?_, hfields.decodeLabel_ok⟩
  · rw [hfields.decodeLabel_firstBad (hfields.firstBad_one bA), hfields.digit_one]
  · rw [hfields.decodeLabel_firstBad (hfields.firstBad_two gA bB), hfields.digit_two]
  · rw [hfields.decodeLabel_firstBad (hfields.firstBad_three gA gB bC), hfields.digit_three]

/-- Settles O13: the decoded label has the same opcode and, digit by digit, at least the assembler's mode digits. -/
theorem assemblerEmitsTheSmallestLabel : Obligations.AssemblerEmitsTheSmallestLabel := by
  unfold Obligations.AssemblerEmitsTheSmallestLabel
  intro p L arg i hi
  obtain ⟨h, hh, rfl⟩ := decode_ok_iff.mp hi
  obtain ⟨h0, hop, h1, h2, h3⟩ := decodeLabel_ok_iff.mp hh
  calc (h.instr arg).label ≤ labelOf h.op h.m1.digit h.m2.digit h.m3.digit := h.label_instr_le arg
    _ ≤ L := labelOf_le h0 hop (digit_le_of_slotMode h1) (digit_le_of_slotMode h2) (digit_le_of_slotMode h3)

/-- Settles O16: every digit of these labels is 0, 1 or 2, and 1 in no write slot, so the parameters are not looked at. -/
theorem sampleWordsDecode : Obligations.SampleWordsDecode := by
  unfold Obligations.SampleWordsDecode
  exact fun p => ⟨rfl, rfl, rfl, rfl, rfl, rfl, rfl, rfl, rfl, rfl⟩

/-! ### InvalidMode of a step (R156) -/

theorem decodeErrorFault_eq_invalidMode_iff {ip j L : Int} {slot d : Nat} {e : DecodeError} :
    decodeErrorFault ip e = .invalidMode slot d j L ↔ j = ip ∧ e = .invalidMode L slot d := by
  cases e with
  | unknown L' => simp [decodeErrorFault]
  | invalidMode L' slot' d' => simp [decodeErrorFault]; tauto

theorem not_operandFault_invalidMode {s : State} {slot d : Nat} {j L : Int} : ¬ OperandFault s (.invalidMode slot d j L) := by
  simp [OperandFault]

/-- A step raises InvalidMode where the label it fetches decodes to it, and nowhere else. -/
theorem step_invalidMode_iff {s : State} {slot d : Nat} {j L : Int} (hs : s.status = .running) :
    step s = .fault (.invalidMode slot d j L) ↔
      0 ≤ s.ip ∧ decodeLabel s.params s.label = .error (.invalidMode L slot d) ∧ j = s.ip := by
  constructor
  · intro h
    rcases step_fault_cases hs h with ⟨-, hf⟩ | ⟨h0, e, he, hf⟩ | hop | ⟨d, -, -, hf⟩
    · cases hf
    · obtain ⟨hj, rfl⟩ := decodeErrorFault_eq_invalidMode_iff.mp hf.symm
      exact ⟨h0, he, hj⟩
    · exact absurd hop not_operandFault_invalidMode
    · cases hf
  · rintro ⟨h0, he, rfl⟩
    exact step_of_fetch_error hs (fetch_error_iff.mpr (.inr ⟨h0, _, decode_error_iff.mpr he, rfl⟩))

/-- With both strictness parameters false no digit is bad (decisions D7, D8). -/
theorem not_badDigit_of_loose {p : Params} (hd : p.strictModeDigits = false) (hw : p.strictWriteImmediate = false) {op : Opcode}
    {slot d : Nat} : ¬ BadDigit p op slot d := by
  simp [BadDigit, hd, hw]

/-- Settles O59: the fault is the decoder's answer for the label at `ip`, which is the first bad slot of its opcode. -/
theorem invalidModeExactlyOnBadDigits : Obligations.InvalidModeExactlyOnBadDigits := by
  unfold Obligations.InvalidModeExactlyOnBadDigits
  refine ⟨fun s L slot d hs h0 he => ?decoded, fun s op slot hs h0 hL hop hpos hbad hgood => ?firstBad,
    fun s slot d j L hs h => ?onlyThere, fun s slot d j L hs hd hw h => ?loose⟩
  case decoded =>
    obtain ⟨-, rfl, -⟩ := decodeLabel_invalidMode_cases he
    exact (step_invalidMode_iff hs).mpr ⟨h0, he, rfl⟩
  case firstBad =>
    have hfirst : FirstBad s.params op s.label.toNat slot := ⟨hpos, hbad, hgood⟩
    exact (step_invalidMode_iff hs).mpr ⟨h0, hfirst.decodeLabel_eq hL hop, rfl⟩
  case onlyThere =>
    obtain ⟨h0, he, hj⟩ := (step_invalidMode_iff hs).mp h
    obtain ⟨hL0, hL, rfl, op, hop, hpos, hbad, hgood⟩ := decodeLabel_invalidMode_cases he
    exact ⟨h0, hL0, hj, hL, hpos, rfl, op, hop, hbad, hgood⟩
  case loose =>
    obtain ⟨-, he, -⟩ := (step_invalidMode_iff hs).mp h
    obtain ⟨-, -, -, op, -, hfirst⟩ := decodeLabel_invalidMode_cases he
    exact not_badDigit_of_loose hd hw hfirst.bad

end Machine

end Sys2Proof
end

section
/-! Launching an engine (spec/70_reset_and_hazards.md R180, R181) and the memory's answers at one address (20_memory.md R43 to R48). -/

namespace Sys2Proof.Machine

/-! ### Construction and presenting input -/

/-- A value out of range makes the check name one such value (R181). -/
theorem exists_firstOutOfRange {p : Params} {vs : List Int} (h : ∃ v ∈ vs, p.inRange v = false) :
    ∃ v ∈ vs, p.inRange v = false ∧ firstOutOfRange p vs = some v := by
  cases hf : firstOutOfRange p vs with
  | none =>
    obtain ⟨v, hv, hout⟩ := h
    rw [firstOutOfRange_none_iff.mp hf v hv] at hout
    cases hout
  | some v =>
    obtain ⟨hv, hout⟩ := firstOutOfRange_some hf
    exact ⟨v, hv, hout, rfl⟩

theorem construct_of_firstOutOfRange {p : Params} {image : List Int} {v : Int} (h : firstOutOfRange p image = some v) :
    construct p image = .error (.imageOutOfRange v) := by
  simp [construct, h]

theorem presentInput_of_firstOutOfRange {s : State} {inputs : List Int} {v : Int}
    (h : firstOutOfRange s.params inputs = some v) : presentInput s inputs = .error (.inputOutOfRange v) := by
  simp [presentInput, h]

theorem constructed_cell (p : Params) (image : List Int) (a : Nat) : (constructed p image).mem.cell a = image.getD a 0 :=
  Memory.cell_ofImage image a

theorem constructed_getElem? (p : Params) {image : List Int} {a : Nat} (h : a < image.length) :
    image[a]? = some ((constructed p image).mem.cell a) := by
  rw [constructed_cell, List.getD_eq_getElem _ _ h, List.getElem?_eq_getElem h]

/-- Settles O2: an image in range is not refused, and each clause is a field of the constructed state. -/
theorem constructionYieldsTheResetTable : Obligations.ConstructionYieldsTheResetTable := by
  unfold Obligations.ConstructionYieldsTheResetTable
  intro p image himage
  exact ⟨constructed p image, construct_ok_iff.mpr ⟨himage, rfl⟩, rfl, rfl, rfl, rfl, rfl, rfl, constructed_extent p image,
    fun a => constructed_getElem? p, fun a => constructed_cell_of_length_le p, Memory.ofImage_wf image⟩

/-- Settles O3: both launches ask for the first value out of range and refuse with it. -/
theorem launchRefusesValuesOutsideWordRange : Obligations.LaunchRefusesValuesOutsideWordRange := by
  unfold Obligations.LaunchRefusesValuesOutsideWordRange
  refine ⟨fun p image h => ?_, fun s inputs h => ?_⟩
  · obtain ⟨v, hv, hout, hfirst⟩ := exists_firstOutOfRange h
    exact ⟨v, hv, hout, construct_of_firstOutOfRange hfirst⟩
  · obtain ⟨v, hv, hout, hfirst⟩ := exists_firstOutOfRange h
    exact ⟨v, hv, hout, presentInput_of_firstOutOfRange hfirst⟩

/-! ### Reads and writes -/

/-- Settles O4: the read checks the address's sign alone, and a cell at or beyond the extent is 0. -/
theorem readsBeyondTheExtentAreZero : Obligations.ReadsBeyondTheExtentAreZero := by
  unfold Obligations.ReadsBeyondTheExtentAreZero
  refine fun s a => ⟨fun hneg => memRead_error_iff.mpr ⟨hneg, rfl⟩, fun hext => ?_⟩
  have hcell : s.mem.cell a.toNat = 0 := Memory.cell_of_extent_le (by omega)
  exact memRead_ok_iff.mpr ⟨by omega, hcell.symm⟩

/-- Settles O5: a write that succeeds is one store, which sets its own cell and no other; canonical memories read what they list. -/
theorem writeThenReadRoundTrip : Obligations.WriteThenReadRoundTrip := by
  unfold Obligations.WriteThenReadRoundTrip
  refine ⟨fun s a v m hm => ?afterWrite, fun m m' hm hm' hcells a => ?sameCells⟩
  case afterWrite =>
    obtain ⟨ha, -, rfl⟩ := memWrite_ok_iff.mp hm
    refine ⟨memRead_ok_iff.mpr ⟨ha, by simp⟩, fun b hb hne => ?_⟩
    have hread : memRead s b = .ok (s.mem.cell b.toNat) := memRead_ok_iff.mpr ⟨hb, rfl⟩
    have hne' : b.toNat ≠ a.toNat := by omega
    rw [hread]
    exact memRead_ok_iff.mpr ⟨hb, by rw [State.withMem_mem, Memory.cell_store_other _ _ hne']⟩
  case sameCells => rw [Memory.cell_eq_lookup hm, Memory.cell_eq_lookup hm', hcells]

/-- Settles O6: the sign, then the capacity, then the store, which grows the extent to hold the cell. -/
theorem writesCheckAddressThenCapacity : Obligations.WritesCheckAddressThenCapacity := by
  unfold Obligations.WritesCheckAddressThenCapacity
  exact fun s a v => ⟨fun hneg => memWrite_error_iff.mpr (.inl ⟨hneg, rfl⟩),
    fun h0 hcap => memWrite_error_iff.mpr (.inr ⟨h0, hcap, rfl⟩),
    fun h0 hcap => ⟨_, memWrite_ok_iff.mpr ⟨h0, hcap, rfl⟩, Memory.store_extent s.mem a.toNat v⟩⟩

end Sys2Proof.Machine
end

section
/-! One step as a whole (spec/40_engine.md R80, R89, R91): its outcome, the status, `ip`, and what it may change. -/

namespace Sys2Proof.Machine

/-! ### What one instruction does to the parameters and to `ip` -/

/-- No instruction writes the parameters (R27). -/
theorem exec_next_params {i : Instr} {s t : State} (h : exec i s = .next t) : t.params = s.params := by
  cases i with
  | add x y d => obtain ⟨-, _, _, _, -, -, -, -, rfl⟩ := execAdd_next_iff.mp h; rfl
  | mul x y d => obtain ⟨-, _, _, _, -, -, -, -, rfl⟩ := execMul_next_iff.mp h; rfl
  | lt x y d => obtain ⟨-, _, _, _, -, -, -, -, rfl⟩ := execLt_next_iff.mp h; rfl
  | eq x y d => obtain ⟨-, _, _, _, -, -, -, -, rfl⟩ := execEq_next_iff.mp h; rfl
  | inp d => obtain ⟨-, _, _, _, -, -, rfl⟩ := execIn_next_iff.mp h; rfl
  | out x => obtain ⟨-, _, -, rfl⟩ := execOut_next_iff.mp h; rfl
  | jt x y => obtain ⟨-, _, _, -, -, rfl⟩ := execJt_next_iff.mp h; rfl
  | jf x y => obtain ⟨-, _, _, -, -, rfl⟩ := execJf_next_iff.mp h; rfl
  | arb x => obtain ⟨-, _, -, -, rfl⟩ := execArb_next_iff.mp h; rfl
  | hlt => rw [execHlt_next_iff.mp h]; rfl

/-- Settles O25: a halted engine answers itself, and no instruction writes the parameters. -/
theorem stepsKeepTheParameters : Obligations.StepsKeepTheParameters := by
  unfold Obligations.StepsKeepTheParameters
  intro s t h
  rcases step_next_iff.mp h with ⟨-, rfl⟩ | ⟨-, i, -, hexec⟩
  · rfl
  · exact exec_next_params hexec

theorem exec_of_step {s t : State} {i : Instr} (hs : s.status = .running) (hi : fetch s = .ok i) (h : step s = .next t) :
    exec i s = .next t :=
  (step_eq_exec hs hi).symm.trans h

/-- Settles O20: each instruction's next state names its `ip`. -/
theorem ipAfterAStep : Obligations.IpAfterAStep := by
  unfold Obligations.IpAfterAStep
  intro s t i hs hi h
  have hexec := exec_of_step hs hi h
  cases i with
  | hlt => rw [execHlt_next_iff.mp hexec]; rfl
  | jt x y => obtain ⟨-, c, g, hc, hg, rfl⟩ := execJt_next_iff.mp hexec; exact ⟨c, g, hc, hg, rfl⟩
  | jf x y => obtain ⟨-, c, g, hc, hg, rfl⟩ := execJf_next_iff.mp hexec; exact ⟨c, g, hc, hg, rfl⟩
  | add x y d => obtain ⟨-, _, _, _, -, -, -, -, rfl⟩ := execAdd_next_iff.mp hexec; rfl
  | mul x y d => obtain ⟨-, _, _, _, -, -, -, -, rfl⟩ := execMul_next_iff.mp hexec; rfl
  | lt x y d => obtain ⟨-, _, _, _, -, -, -, -, rfl⟩ := execLt_next_iff.mp hexec; rfl
  | eq x y d => obtain ⟨-, _, _, _, -, -, -, -, rfl⟩ := execEq_next_iff.mp hexec; rfl
  | inp d => obtain ⟨-, _, _, _, -, -, rfl⟩ := execIn_next_iff.mp hexec; rfl
  | out x => obtain ⟨-, _, -, rfl⟩ := execOut_next_iff.mp hexec; rfl
  | arb x => obtain ⟨-, _, -, -, rfl⟩ := execArb_next_iff.mp hexec; rfl

/-! ### The outcome of a step -/

/-- Settles O17: `fetch` is that decoding, and the step runs what it fetches. -/
theorem stepRunsTheDecodedInstruction : Obligations.StepRunsTheDecodedInstruction := by
  unfold Obligations.StepRunsTheDecodedInstruction
  exact fun s i hs h0 hdecode => step_eq_exec hs (fetch_ok_iff.mpr ⟨h0, hdecode⟩)

/-- Settles O18: each of R80's four outcomes comes from a next state or a fault. -/
theorem stepNeverRefuses : Obligations.StepNeverRefuses := by
  unfold Obligations.StepNeverRefuses
  intro s r h
  rcases stepResult_cases s with ⟨t, -, ht, -⟩ | ⟨v, t, -, ht, -⟩ | ⟨t, -, ht, -⟩ | ⟨f, -, hf⟩
  · rw [h] at ht; cases ht
  · rw [h] at ht; cases ht
  · rw [h] at ht; cases ht
  · rw [h] at hf; cases hf

/-- A running engine stays Running unless it runs HLT. -/
theorem step_next_status {s t : State} (hs : s.status = .running) (h : step s = .next t) :
    t.status = .running ∨ (fetch s = .ok .hlt ∧ t = s.withStatus .halted) := by
  rcases step_next_iff.mp h with ⟨hhalted, -⟩ | ⟨-, i, hi, hexec⟩
  · rw [hs] at hhalted; cases hhalted
  · rcases exec_next_ports hexec with ⟨-, hstatus, -⟩ | ⟨x, v, -, -, -, hstatus⟩ | ⟨rfl, ht⟩
    · exact .inl (hstatus.trans hs)
    · exact .inl (hstatus.trans hs)
    · exact .inr ⟨hi, ht⟩

theorem step_of_halted {s : State} (hs : s.status = .halted) : step s = .next s :=
  step_next_iff.mpr (.inl ⟨hs, rfl⟩)

theorem step_of_faulted {s : State} {f : Fault} (hs : s.status = .faulted f) : step s = .fault f :=
  step_fault_iff.mpr (.inl hs)

theorem takeFault_of_faulted {s : State} {f : Fault} (hs : s.status = .faulted f) : takeFault s f = s := by
  rw [takeFault, ← hs]; rfl

/-- A faulted engine faults again and is left as it is (R96, R160). -/
theorem stepResult_of_faulted {s : State} {f : Fault} (hs : s.status = .faulted f) : stepResult s = .fault f s := by
  rw [stepResult_of_fault (step_of_faulted hs), takeFault_of_faulted hs]

/-- Settles O19: the status is set by construction, by HLT and by taking a fault, and a step of a terminal engine repeats it. -/
theorem statusLifecycle : Obligations.StatusLifecycle := by
  unfold Obligations.StatusLifecycle
  refine ⟨fun p image s hs => ?constructed, fun s hs hi => ?halts, fun s f _ h => stepResult_of_fault h,
    fun s t hs h hne => ?onlyHlt, fun s hs => stepResult_of_halted (step_of_halted hs) hs, fun s f => stepResult_of_faulted⟩
  case constructed =>
    obtain ⟨-, rfl⟩ := construct_ok_iff.mp hs
    rfl
  case halts =>
    have hstep : step s = .next (s.withStatus .halted) := (step_eq_exec hs hi).trans (execHlt_next_iff.mpr rfl)
    exact stepResult_of_halted hstep rfl
  case onlyHlt =>
    rcases step_next_status hs h with hrunning | ⟨hi, rfl⟩
    · exact absurd hrunning hne
    · exact ⟨rfl, hi⟩

/-! ### At most one effect -/

/-- Settles O21: a store keeps `rb` and advances `ip`, an ARB keeps memory and advances `ip`, and no instruction is both. -/
theorem oneEffectPerStep : Obligations.OneEffectPerStep := by
  unfold Obligations.OneEffectPerStep
  intro s t i hs hi h
  have hexec := exec_of_step hs hi h
  have hmem : t.mem = s.mem ∨ (t.rb = s.rb ∧ t.ip = s.ip + i.length) := by
    rcases exec_next_mem hexec with ⟨hm, -⟩ | ⟨_, _, _, -, -, -, hstored⟩
    · exact .inl hm
    · exact .inr hstored
  have hrb : t.rb = s.rb ∨ (t.mem = s.mem ∧ t.ip = s.ip + i.length) := by
    rcases exec_next_rb hexec with hr | ⟨x, a, rfl, -, -, harb⟩
    · exact .inl hr
    · exact .inr harb
  refine ⟨hmem.resolve_left, hrb.resolve_left, fun hip => ⟨?_, ?_⟩⟩
  · exact hmem.resolve_right fun hadvanced => hip hadvanced.2
  · exact hrb.resolve_right fun hadvanced => hip hadvanced.2

/-- Settles O22: a halted engine keeps `rb`, and of the instructions ARB alone writes it. -/
theorem onlyArbWritesTheRelativeBase : Obligations.OnlyArbWritesTheRelativeBase := by
  unfold Obligations.OnlyArbWritesTheRelativeBase
  intro s t h hne
  rcases step_next_iff.mp h with ⟨-, rfl⟩ | ⟨hs, i, hi, hexec⟩
  · exact absurd rfl hne
  · rcases exec_next_rb hexec with hr | ⟨x, a, rfl, ha, hr, -⟩
    · exact absurd hr hne
    · exact ⟨hs, x, a, hi, ha, hr⟩

/-! ### Memory -/

/-- Settles O49: a step's one store is at the address `stepStoreAddr` names. -/
theorem stepsChangeOnlyTheStoredCell : Obligations.StepsChangeOnlyTheStoredCell := by
  unfold Obligations.StepsChangeOnlyTheStoredCell
  exact fun s t b h hb => step_cell_of_not_stored h hb

/-- A step leaves the extent or stores to a cell below the capacity (R44, R46). -/
theorem step_next_extent {s t : State} (h : step s = .next t) : t.mem.extent = s.mem.extent ∨
    ∃ c, s.params.belowCapacity c = true ∧ t.mem.extent = max s.mem.extent (c + 1) := by
  rcases step_next_iff.mp h with ⟨-, rfl⟩ | ⟨-, i, -, hexec⟩
  · exact .inl rfl
  · rcases exec_next_mem hexec with ⟨hm, -⟩ | ⟨d, c, v, -, ⟨-, hcap⟩, hm, -, -⟩
    · exact .inl (by rw [hm])
    · exact .inr ⟨c, hcap, by rw [hm, Memory.store_extent]⟩

theorem Params.belowCapacity_iff {p : Params} {a : Nat} :
    p.belowCapacity a = true ↔ ∀ n, p.memCapacity = .finite n → a < n := by
  unfold Params.belowCapacity
  cases p.memCapacity <;> simp

theorem State.fitsCapacity_iff {s : State} :
    s.fitsCapacity = true ↔ ∀ n, s.params.memCapacity = .finite n → s.mem.extent ≤ n := by
  unfold State.fitsCapacity
  cases s.params.memCapacity <;> simp

/-- Settles O52: the extent grows only to hold a cell that the write found below the capacity. -/
theorem stepKeepsMemoryWithinCapacity : Obligations.StepKeepsMemoryWithinCapacity := by
  unfold Obligations.StepKeepsMemoryWithinCapacity
  intro s t hs h
  rw [State.fitsCapacity_iff, stepsKeepTheParameters s t h]
  intro n hn
  have hfits : s.mem.extent ≤ n := State.fitsCapacity_iff.mp hs n hn
  rcases step_next_extent h with hext | ⟨c, hcap, hext⟩
  · omega
  · have hbelow : c < n := Params.belowCapacity_iff.mp hcap n hn
    omega

end Sys2Proof.Machine
end

section
/-! What each instruction does when it completes (spec/41_arithmetic.md to 45_relative_base.md, 40_engine.md R83), and its frame (R89). -/

namespace Sys2Proof.Machine

/-! ### The instructions that store -/

section
variable {s t : State} {x y d : Arg} {result : Int → Int → Int} {fits : Int → Bool} {a b : Int} {c : Nat}

/-- ADD, MUL, LT and EQ complete where the advance fits, the operands resolve, the result fits and the target is writable. -/
theorem binaryStores_of_reads (hadvance : AdvanceFits s 4) (hx : Reads s x a) (hy : Reads s y b)
    (hfits : fits (result a b) = true) (hd : Targets s d c) :
    BinaryStores s ((s.withIp (s.ip + 4)).withMem (s.mem.store c (result a b))) x y d result fits :=
  ⟨hadvance, a, b, c, hx, hy, hfits, hd, rfl⟩

theorem BinaryStores.stored (h : BinaryStores s t x y d result fits) :
    ∃ c v, Targets s d c ∧ Stored s t (s.ip + 4) s.inq c v := by
  obtain ⟨-, a, b, c, -, -, -, hd, rfl⟩ := h
  exact ⟨c, result a b, hd, stored_withMem s (s.ip + 4) c (result a b)⟩

end

/-- The shape of IN's store: as `stored_withMem`, with the rest of the queue. -/
theorem stored_withMem_withInq (s : State) (ip : Int) (c : Nat) (v : Int) (q : List Int) :
    Stored s (((s.withIp ip).withMem (s.mem.store c v)).withInq q) ip q c v :=
  { stored_withMem s ip c v with inq_eq := rfl }

/-- Settles O26. The completion condition of ADD holds, and its next state is one store. -/
theorem addStoresTheSum : Obligations.AddStoresTheSum := by
  unfold Obligations.AddStoresTheSum
  exact fun s x y d a b c hadvance hx hy hsum hd =>
    ⟨_, execAdd_next_iff.mpr (binaryStores_of_reads hadvance hx hy hsum hd), stored_withMem s _ c _⟩

/-- Settles O27. The completion condition of MUL holds, and its next state is one store. -/
theorem mulStoresTheProduct : Obligations.MulStoresTheProduct := by
  unfold Obligations.MulStoresTheProduct
  exact fun s x y d a b c hadvance hx hy hproduct hd =>
    ⟨_, execMul_next_iff.mpr (binaryStores_of_reads hadvance hx hy hproduct hd), stored_withMem s _ c _⟩

/-- Settles O32. LT's result is 1 or 0, so it has no range to check. -/
theorem ltStoresTheSignedComparison : Obligations.LtStoresTheSignedComparison := by
  unfold Obligations.LtStoresTheSignedComparison
  exact fun s x y d a b c hadvance hx hy hd =>
    ⟨_, execLt_next_iff.mpr (binaryStores_of_reads hadvance hx hy rfl hd), stored_withMem s _ c (lessThanResult a b)⟩

/-- Settles O33. EQ's result is 1 or 0, so it has no range to check. -/
theorem eqStoresTheEquality : Obligations.EqStoresTheEquality := by
  unfold Obligations.EqStoresTheEquality
  exact fun s x y d a b c hadvance hx hy hd =>
    ⟨_, execEq_next_iff.mpr (binaryStores_of_reads hadvance hx hy rfl hd), stored_withMem s _ c (equalsResult a b)⟩

/-- Settles O28. The completion condition of IN holds, and its next state is one store with the queue's tail. -/
theorem inStoresTheHeadOfTheQueue : Obligations.InStoresTheHeadOfTheQueue := by
  unfold Obligations.InStoresTheHeadOfTheQueue
  exact fun s d v q c hadvance hq hd =>
    ⟨_, execIn_next_iff.mpr ⟨hadvance, v, q, c, hq, hd, rfl⟩, stored_withMem_withInq s _ c v q⟩

/-! ### The instructions that do not store -/

/-- Settles O29: the value is read before the stream is written. -/
theorem outAppendsTheValue : Obligations.OutAppendsTheValue := by
  unfold Obligations.OutAppendsTheValue
  exact fun s x v hadvance hx => execOut_next_iff.mpr ⟨hadvance, v, hx, rfl⟩

/-- Settles O30: JT's test is that the condition is not 0. -/
theorem jtJumpsOnNonZero : Obligations.JtJumpsOnNonZero := by
  unfold Obligations.JtJumpsOnNonZero
  exact fun s x y c g hadvance hx hy => execJt_next_iff.mpr ⟨hadvance, c, g, hx, hy, by rw [ite_not]; rfl⟩

/-- Settles O31: JF's test is that the condition is 0. -/
theorem jfJumpsOnZero : Obligations.JfJumpsOnZero := by
  unfold Obligations.JfJumpsOnZero
  exact fun s x y c g hadvance hx hy => execJf_next_iff.mpr ⟨hadvance, c, g, hx, hy, rfl⟩

/-- Settles O34: the operand is read in the state before `rb` is written. -/
theorem arbAddsToTheRelativeBase : Obligations.ArbAddsToTheRelativeBase := by
  unfold Obligations.ArbAddsToTheRelativeBase
  exact fun s x a hadvance hx hsum => execArb_next_iff.mpr ⟨hadvance, a, hx, hsum, rfl⟩

/-- A label that ends in 99 is HLT whatever its other digits: HLT uses no slot (R66). -/
theorem fetch_hlt {s : State} (h0 : 0 ≤ s.ip) (hL : 0 ≤ s.label) (hmod : s.label.toNat % 100 = 99) : fetch s = .ok .hlt := by
  have hunused (slot : Nat) (hpos : 0 < slot) : slotMode s.params s.label.toNat .hlt slot = .ok .position := slotMode_unused hpos
  have hhead : decodeLabel s.params s.label = .ok ⟨.hlt, .position, .position, .position⟩ :=
    decodeLabel_ok_iff.mpr ⟨hL, hmod, hunused 1 (by decide), hunused 2 (by decide), hunused 3 (by decide)⟩
  exact fetch_ok_iff.mpr ⟨h0, decode_ok_iff.mpr ⟨_, hhead, rfl⟩⟩

/-- Settles O35: HLT writes the status alone, and every such label is fetched as HLT. -/
theorem hltHaltsWithoutAdvancing : Obligations.HltHaltsWithoutAdvancing := by
  unfold Obligations.HltHaltsWithoutAdvancing
  have hexec (s : State) : exec .hlt s = .next { s with status := .halted } := execHlt_next_iff.mpr rfl
  exact ⟨hexec, fun s hs h0 hL hmod => (step_eq_exec hs (fetch_hlt h0 hL hmod)).trans (hexec s)⟩

/-! ### Frames -/

theorem Targets.addr_eq {s : State} {d : Arg} {c : Nat} {a : Int} (h : Targets s d c) (ha : wa s d = .ok a) : a = c := by
  have hc : wa s d = .ok (c : Int) := wa_ok_iff.mpr h.1
  rw [ha] at hc
  exact Except.ok.inj hc

/-- What a store through target `d` leaves: every cell but the one `d` resolves to, and every register and port but `ip` and the
input queue. -/
theorem Stored.frame {s t : State} {ip : Int} {inq : List Int} {d : Arg} {c : Nat} {v a : Int} (h : Stored s t ip inq c v)
    (hd : Targets s d c) (ha : wa s d = .ok a) :
    (∀ b : Nat, (b : Int) ≠ a → t.mem.cell b = s.mem.cell b) ∧
      t.rb = s.rb ∧ t.status = s.status ∧ t.inq = inq ∧ t.out = s.out ∧ t.params = s.params := by
  obtain rfl := hd.addr_eq ha
  exact ⟨fun b hb => h.others_eq b (by simpa using hb), h.rb_eq, h.status_eq, h.inq_eq, h.out_eq, h.params_eq⟩

/-- Settles O46: each of the four is one store through its target. -/
theorem binaryStoreFrame : Obligations.BinaryStoreFrame := by
  unfold Obligations.BinaryStoreFrame
  intro s t i x y d a hi h ha
  suffices hstored : ∃ c v, Targets s d c ∧ Stored s t (s.ip + 4) s.inq c v by
    obtain ⟨c, v, hd, ht⟩ := hstored
    exact ht.frame hd ha
  simp only [List.mem_cons, List.not_mem_nil, or_false] at hi
  rcases hi with rfl | rfl | rfl | rfl
  · exact (execAdd_next_iff.mp h).stored
  · exact (execMul_next_iff.mp h).stored
  · exact (execLt_next_iff.mp h).stored
  · exact (execEq_next_iff.mp h).stored

/-- Settles O47: IN is one store through its target, with the queue's tail. -/
theorem inFrame : Obligations.InFrame := by
  unfold Obligations.InFrame
  intro s t d a h ha
  obtain ⟨-, v, q, c, hq, hd, rfl⟩ := execIn_next_iff.mp h
  rw [hq, List.tail_cons]
  exact (stored_withMem_withInq s (s.ip + 2) c v q).frame hd ha

/-- Settles O48: none of the five has a write slot, and each names the one register or port it writes. -/
theorem nonStoringFrame : Obligations.NonStoringFrame := by
  unfold Obligations.NonStoringFrame
  intro s t i x y hi h
  simp only [List.mem_cons, List.not_mem_nil, or_false] at hi
  rcases hi with rfl | rfl | rfl | rfl | rfl
  · obtain ⟨-, v, -, rfl⟩ := execOut_next_iff.mp h; simp
  · obtain ⟨-, c, g, -, -, rfl⟩ := execJt_next_iff.mp h; simp
  · obtain ⟨-, c, g, -, -, rfl⟩ := execJf_next_iff.mp h; simp
  · obtain ⟨-, a, -, -, rfl⟩ := execArb_next_iff.mp h; simp
  · rw [execHlt_next_iff.mp h]; simp

end Sys2Proof.Machine
end

section
/-! How an instruction faults: the first fault in the order of spec/60_exceptions.md R158 (decision D13), and its record (R157). -/

namespace Sys2Proof.Machine

/-! ### The first fault of each shape, in order: advance, operands, result or input, destination -/

section
variable {s : State} {f : Fault}

/-- A fault of the advance is the fault of whatever follows it. -/
theorem advance_fault {α : Type} {op : Opcode} {k : Int → Except Fault α} (h : ¬ AdvanceFits s op.length) :
    (advance s op >>= k) = .error (.arithmeticOverflow (s.ip + op.length) s.ip s.label) :=
  bind_error_iff.mpr (.inl (advance_error_iff.mpr ⟨by simpa [AdvanceFits] using h, rfl⟩))

theorem execIn_fault_iff {d : Arg} : execIn d s = .fault f ↔ advance s .inp = .error f ∨
    (AdvanceFits s 2 ∧ (takeInput s = .error f ∨ (s.inq ≠ [] ∧ WriteFaults s d f))) := by
  simp only [execIn, conclude_fault_iff, bind_error_iff, advance_ok_iff, takeInput_ok_iff, writeBack_error_iff, pure_ne_error,
    and_false, exists_false, or_false, AdvanceFits]
  constructor
  · rintro (h | ⟨n, ⟨h0, -⟩, h | ⟨vq, hq, h⟩⟩)
    · exact .inl h
    · exact .inr ⟨h0, .inl h⟩
    · exact .inr ⟨h0, .inr ⟨by simp [hq], h⟩⟩
  · rintro (h | ⟨h0, h | ⟨hq, h⟩⟩)
    · exact .inl h
    · exact .inr ⟨_, ⟨h0, rfl⟩, .inl h⟩
    · obtain ⟨v, q, hvq⟩ := List.exists_cons_of_ne_nil hq
      exact .inr ⟨_, ⟨h0, rfl⟩, .inr ⟨(v, q), hvq, h⟩⟩

theorem execOut_fault_iff {x : Arg} : execOut x s = .fault f ↔
    advance s .out = .error f ∨ (AdvanceFits s 2 ∧ ReadFaults s x f) := by
  simp only [execOut, conclude_fault_iff, bind_error_iff, advance_ok_iff, rd_error_iff, pure_ne_error, and_false, exists_false,
    or_false, AdvanceFits]
  constructor
  · rintro (h | ⟨n, ⟨h0, -⟩, h⟩)
    · exact .inl h
    · exact .inr ⟨h0, h⟩
  · rintro (h | ⟨h0, h⟩)
    · exact .inl h
    · exact .inr ⟨_, ⟨h0, rfl⟩, h⟩

theorem execArb_fault_iff {x : Arg} : execArb x s = .fault f ↔ advance s .arb = .error f ∨
    (AdvanceFits s 2 ∧ (ReadFaults s x f ∨ ∃ a, Reads s x a ∧ checked s (s.rb + a) = .error f)) := by
  simp only [execArb, conclude_fault_iff, bind_error_iff, advance_ok_iff, rd_error_iff, rd_ok_iff, pure_ne_error, and_false,
    exists_false, or_false, AdvanceFits]
  constructor
  · rintro (h | ⟨n, ⟨h0, -⟩, h⟩)
    · exact .inl h
    · exact .inr ⟨h0, h⟩
  · rintro (h | ⟨h0, h⟩)
    · exact .inl h
    · exact .inr ⟨_, ⟨h0, rfl⟩, h⟩

end

section
variable {op : Opcode} {result : Int → Int → Except Fault Int} {taken : Int → Bool} {x y d : Arg} {s : State} {a b : Int} {f : Fault}

theorem storeBinary_first_fault (h0 : AdvanceFits s op.length) (hx : ReadFaults s x f) :
    conclude (storeBinary op result x y d s) = .fault f :=
  conclude_fault_iff.mpr (storeBinary_error_iff.mpr (.inr ⟨h0, .inl hx⟩))

theorem storeBinary_second_fault (h0 : AdvanceFits s op.length) (hx : Reads s x a) (hy : ReadFaults s y f) :
    conclude (storeBinary op result x y d s) = .fault f :=
  conclude_fault_iff.mpr (storeBinary_error_iff.mpr (.inr ⟨h0, .inr ⟨a, hx, .inl hy⟩⟩))

theorem storeBinary_result_fault (h0 : AdvanceFits s op.length) (hx : Reads s x a) (hy : Reads s y b)
    (hr : result a b = .error f) : conclude (storeBinary op result x y d s) = .fault f :=
  conclude_fault_iff.mpr (storeBinary_error_iff.mpr (.inr ⟨h0, .inr ⟨a, hx, .inr ⟨b, hy, .inl hr⟩⟩⟩))

theorem storeBinary_write_fault {v : Int} (h0 : AdvanceFits s op.length) (hx : Reads s x a) (hy : Reads s y b)
    (hr : result a b = .ok v) (hd : WriteFaults s d f) : conclude (storeBinary op result x y d s) = .fault f :=
  conclude_fault_iff.mpr (storeBinary_error_iff.mpr (.inr ⟨h0, .inr ⟨a, hx, .inr ⟨b, hy, .inr ⟨v, hr, hd⟩⟩⟩⟩))

theorem jumpIf_first_fault (h0 : AdvanceFits s op.length) (hx : ReadFaults s x f) :
    conclude (jumpIf op taken x y s) = .fault f :=
  conclude_fault_iff.mpr (jumpIf_error_iff.mpr (.inr ⟨h0, .inl hx⟩))

theorem jumpIf_second_fault (h0 : AdvanceFits s op.length) (hx : Reads s x a) (hy : ReadFaults s y f) :
    conclude (jumpIf op taken x y s) = .fault f :=
  conclude_fault_iff.mpr (jumpIf_error_iff.mpr (.inr ⟨h0, .inr ⟨a, hx, hy⟩⟩))

end

/-- Settles O40: the checked sum or product, and for ARB the checked new `rb`, is the first fault. -/
theorem resultsOutsideWordRangeFault : Obligations.ResultsOutsideWordRangeFault := by
  unfold Obligations.ResultsOutsideWordRangeFault
  exact ⟨fun s x y d a b h0 hx hy hout => storeBinary_result_fault (op := .add) h0 hx hy (checked_error_iff.mpr ⟨hout, rfl⟩),
    fun s x y d a b h0 hx hy hout => storeBinary_result_fault (op := .mul) h0 hx hy (checked_error_iff.mpr ⟨hout, rfl⟩),
    fun s x a h0 hx hout => execArb_fault_iff.mpr (.inr ⟨h0, .inr ⟨a, hx, checked_error_iff.mpr ⟨hout, rfl⟩⟩⟩)⟩

/-- Settles O41: every instruction but HLT starts with its advance. -/
theorem advanceOutsideWordRangeFaultsFirst : Obligations.AdvanceOutsideWordRangeFaultsFirst := by
  unfold Obligations.AdvanceOutsideWordRangeFaultsFirst
  intro s i hne h
  cases i
  case hlt => exact absurd rfl hne
  all_goals exact conclude_fault_iff.mpr (advance_fault h)

/-- Settles O42: after the advance every one of the eight reads its first argument. -/
theorem firstReadFaultIsReported : Obligations.FirstReadFaultIsReported := by
  unfold Obligations.FirstReadFaultIsReported
  intro s i x y d f hi h0 hx
  simp only [List.mem_cons, List.not_mem_nil, or_false] at hi
  rcases hi with rfl | rfl | rfl | rfl | rfl | rfl | rfl | rfl
  · exact storeBinary_first_fault h0 hx
  · exact storeBinary_first_fault h0 hx
  · exact storeBinary_first_fault h0 hx
  · exact storeBinary_first_fault h0 hx
  · exact execOut_fault_iff.mpr (.inr ⟨h0, hx⟩)
  · exact jumpIf_first_fault h0 hx
  · exact jumpIf_first_fault h0 hx
  · exact execArb_fault_iff.mpr (.inr ⟨h0, .inl hx⟩)

/-- Settles O43: the second argument is read before a result is computed and before a jump is decided. -/
theorem secondReadFaultIsReported : Obligations.SecondReadFaultIsReported := by
  unfold Obligations.SecondReadFaultIsReported
  intro s i x y d a f hi h0 hx hy
  simp only [List.mem_cons, List.not_mem_nil, or_false] at hi
  rcases hi with rfl | rfl | rfl | rfl | rfl | rfl
  · exact storeBinary_second_fault h0 hx hy
  · exact storeBinary_second_fault h0 hx hy
  · exact storeBinary_second_fault h0 hx hy
  · exact storeBinary_second_fault h0 hx hy
  · exact jumpIf_second_fault h0 hx hy
  · exact jumpIf_second_fault h0 hx hy

/-- Settles O44: with the result there, or the input taken, only the destination is left to fault. -/
theorem destinationFaultIsReportedLast : Obligations.DestinationFaultIsReportedLast := by
  unfold Obligations.DestinationFaultIsReportedLast
  refine ⟨fun s i x y d a b f hi h0 hx hy hd => ?_, fun s d f h0 hq hd => execIn_fault_iff.mpr (.inr ⟨h0, .inr ⟨hq, hd⟩⟩)⟩
  rcases hi with rfl | rfl | ⟨rfl, hsum⟩ | ⟨rfl, hproduct⟩
  · exact storeBinary_write_fault (op := .lt) h0 hx hy rfl hd
  · exact storeBinary_write_fault (op := .eq) h0 hx hy rfl hd
  · exact storeBinary_write_fault (op := .add) h0 hx hy (checked_ok_iff.mpr ⟨hsum, rfl⟩) hd
  · exact storeBinary_write_fault (op := .mul) h0 hx hy (checked_ok_iff.mpr ⟨hproduct, rfl⟩) hd

/-! ### Records -/

/-- At a negative `ip` the fetch faults and nothing is run (R153). -/
theorem step_of_ip_neg {s : State} (hs : s.status = .running) (hneg : s.ip < 0) :
    step s = .fault (.addressFault s.ip .fetch s.ip none) :=
  step_of_fetch_error hs (fetch_error_iff.mpr (.inl ⟨hneg, rfl⟩))

/-- Settles O45: the sources of a step's fault are the negative `ip`, the label, an operand and the queue, and each names the
record's fields. -/
theorem faultRecordNamesTheInstruction : Obligations.FaultRecordNamesTheInstruction := by
  unfold Obligations.FaultRecordNamesTheInstruction
  intro s f hs h
  by_cases hneg : s.ip < 0
  · rw [step_of_ip_neg hs hneg] at h
    cases h
    exact ⟨rfl, (if_pos hneg).symm, rfl, rfl, rfl, hneg⟩
  · have hlabel : some s.label = if s.ip < 0 then none else some s.label := (if_neg hneg).symm
    rcases step_fault_cases hs h with ⟨hneg', -⟩ | ⟨-, e, he, rfl⟩ | hop | ⟨d, -, -, rfl⟩
    · exact absurd hneg' hneg
    · cases e with
      | unknown L =>
        obtain ⟨-, rfl⟩ := decodeLabel_unknown_iff.mp he
        exact ⟨rfl, hlabel, rfl, rfl, rfl⟩
      | invalidMode L slot d =>
        obtain ⟨-, rfl, hd, -⟩ := decodeLabel_invalidMode_cases he
        exact ⟨rfl, hlabel, rfl, rfl, rfl, hd⟩
    · rcases hop with ⟨a, k, ha, -, rfl⟩ | ⟨v, hv, rfl⟩ | ⟨a, ha, hcap, rfl⟩
      · exact ⟨rfl, hlabel, rfl, rfl, rfl, ha⟩
      · exact ⟨rfl, hlabel, rfl, rfl, rfl, hv⟩
      · exact ⟨rfl, hlabel, rfl, rfl, rfl, ha, hcap⟩
    · exact ⟨rfl, hlabel, rfl, rfl, rfl⟩

end Sys2Proof.Machine
end

section
/-! The invariant of `State.inv`: one rule per state operation, and then every instruction by the operations it is made of
(spec/10_state.md R22, R25, 20_memory.md R40, 42_io.md R112). -/

namespace Sys2Proof.Machine

/-- `State.inv` field by field. -/
structure Inv (s : State) : Prop where
  params_wf : s.params.wf = true
  mem_wf : s.mem.wf = true
  ip_inRange : s.params.inRange s.ip = true
  rb_inRange : s.params.inRange s.rb = true
  cells_inRange : ∀ c ∈ s.mem.cells, s.params.inRange c.2 = true
  inq_inRange : ∀ v ∈ s.inq, s.params.inRange v = true
  out_inRange : ∀ v ∈ s.out, s.params.inRange v = true

theorem State.inv_iff {s : State} : s.inv = true ↔ Inv s := by
  simp only [State.inv, Bool.and_eq_true, List.all_eq_true]
  constructor
  · rintro ⟨⟨⟨⟨⟨⟨h1, h2⟩, h3⟩, h4⟩, h5⟩, h6⟩, h7⟩
    exact ⟨h1, h2, h3, h4, h5, h6, h7⟩
  · rintro ⟨h1, h2, h3, h4, h5, h6, h7⟩
    exact ⟨⟨⟨⟨⟨⟨h1, h2⟩, h3⟩, h4⟩, h5⟩, h6⟩, h7⟩

/-! ### WORD_RANGE -/

theorem inRange_zero {p : Params} (hp : p.wf = true) : p.inRange 0 = true :=
  inRange_of_64 hp (by decide) (by decide)

theorem inRange_one {p : Params} (hp : p.wf = true) : p.inRange 1 = true :=
  inRange_of_64 hp (by decide) (by decide)

/-- The results of LT and EQ (R130, R131). -/
theorem inRange_one_or_zero {p : Params} (hp : p.wf = true) (c : Prop) [Decidable c] : p.inRange (if c then 1 else 0) = true := by
  split
  · exact inRange_one hp
  · exact inRange_zero hp

namespace Inv

variable {s : State}

/-! ### What an engine with the invariant reads -/

theorem cell_inRange (h : Inv s) (a : Nat) : s.params.inRange (s.mem.cell a) = true := by
  rcases s.mem.cell_zero_or_mem a with h0 | hmem
  · rw [h0]; exact inRange_zero h.params_wf
  · exact h.cells_inRange _ hmem

theorem reads_inRange (h : Inv s) {x : Arg} {v : Int} (hx : s.params.inRange x.raw = true) (hv : Reads s x v) :
    s.params.inRange v = true := by
  unfold Reads at hv
  split at hv
  · exact hv ▸ hx
  · obtain ⟨-, rfl⟩ := hv; exact h.cell_inRange _
  · obtain ⟨-, -, rfl⟩ := hv; exact h.cell_inRange _

/-- The raw arguments of a fetched instruction are cells. -/
theorem args_inRange (h : Inv s) {i : Instr} (hi : fetch s = .ok i) : ∀ v ∈ i.args, s.params.inRange v = true := by
  obtain ⟨-, hdecode⟩ := fetch_ok_iff.mp hi
  obtain ⟨head, -, rfl⟩ := decode_ok_iff.mp hdecode
  intro v hv
  rw [Head.instr_args, List.mem_map] at hv
  obtain ⟨k, -, rfl⟩ := hv
  exact h.cell_inRange _

/-! ### The operations keep the invariant -/

theorem withIp (h : Inv s) {v : Int} (hv : s.params.inRange v = true) : Inv (s.withIp v) :=
  { h with ip_inRange := hv }

theorem withRb (h : Inv s) {v : Int} (hv : s.params.inRange v = true) : Inv (s.withRb v) :=
  { h with rb_inRange := hv }

theorem withStatus (h : Inv s) (v : Status) : Inv (s.withStatus v) :=
  { h with }

theorem withInq (h : Inv s) {q : List Int} (hq : ∀ v ∈ q, s.params.inRange v = true) : Inv (s.withInq q) :=
  { h with inq_inRange := hq }

theorem withOut (h : Inv s) {q : List Int} (hq : ∀ v ∈ q, s.params.inRange v = true) : Inv (s.withOut q) :=
  { h with out_inRange := hq }

theorem store (h : Inv s) {a : Nat} {v : Int} (hv : s.params.inRange v = true) : Inv (s.withMem (s.mem.store a v)) :=
  { h with
    mem_wf := Memory.store_wf a v h.mem_wf
    cells_inRange := fun c hc => by
      rcases Memory.mem_store_cells hc with ⟨rfl, -⟩ | hc
      · exact hv
      · exact h.cells_inRange c hc }

/-! ### The instructions keep the invariant -/

theorem binaryStores (h : Inv s) {t : State} {x y d : Arg} {result : Int → Int → Int} {fits : Int → Bool}
    (hfits : ∀ a b, fits (result a b) = true → s.params.inRange (result a b) = true)
    (ht : BinaryStores s t x y d result fits) : Inv t := by
  obtain ⟨hadvance, a, b, c, -, -, hresult, -, rfl⟩ := ht
  exact (h.withIp hadvance).store (hfits a b hresult)

/-- An instruction whose raw arguments are values of cells keeps the invariant. -/
theorem exec_next (h : Inv s) {i : Instr} {t : State} (hi : ∀ v ∈ i.args, s.params.inRange v = true)
    (ht : exec i s = .next t) : Inv t := by
  cases i with
  | add x y d => exact h.binaryStores (fun _ _ => id) (execAdd_next_iff.mp ht)
  | mul x y d => exact h.binaryStores (fun _ _ => id) (execMul_next_iff.mp ht)
  | lt x y d => exact h.binaryStores (fun a b _ => inRange_one_or_zero h.params_wf (a < b)) (execLt_next_iff.mp ht)
  | eq x y d => exact h.binaryStores (fun a b _ => inRange_one_or_zero h.params_wf (a = b)) (execEq_next_iff.mp ht)
  | inp d =>
    obtain ⟨hadvance, v, q, c, hq, -, rfl⟩ := execIn_next_iff.mp ht
    obtain ⟨hv, hrest⟩ := List.forall_mem_cons.mp (hq ▸ h.inq_inRange)
    exact ((h.withIp hadvance).store hv).withInq hrest
  | out x =>
    obtain ⟨hadvance, v, hv, rfl⟩ := execOut_next_iff.mp ht
    have hvalue : s.params.inRange v = true := h.reads_inRange (hi x.raw (by simp [Instr.args])) hv
    exact (h.withIp hadvance).withOut (List.forall_mem_append.mpr ⟨h.out_inRange, by simpa using hvalue⟩)
  | jt x y =>
    obtain ⟨hadvance, c, g, -, hg, rfl⟩ := execJt_next_iff.mp ht
    have htarget : s.params.inRange g = true := h.reads_inRange (hi y.raw (by simp [Instr.args])) hg
    exact h.withIp (by split; exacts [htarget, hadvance])
  | jf x y =>
    obtain ⟨hadvance, c, g, -, hg, rfl⟩ := execJf_next_iff.mp ht
    have htarget : s.params.inRange g = true := h.reads_inRange (hi y.raw (by simp [Instr.args])) hg
    exact h.withIp (by split; exacts [htarget, hadvance])
  | arb x =>
    obtain ⟨hadvance, a, -, hsum, rfl⟩ := execArb_next_iff.mp ht
    exact (h.withIp hadvance).withRb hsum
  | hlt => rw [execHlt_next_iff.mp ht]; exact h.withStatus _

theorem step_next (h : Inv s) {t : State} (ht : step s = .next t) : Inv t := by
  rcases step_next_iff.mp ht with ⟨-, rfl⟩ | ⟨-, i, hi, hexec⟩
  · exact h
  · exact h.exec_next (h.args_inRange hi) hexec

end Inv

/-- Settles O50: a fetched instruction's raw arguments are cells, and each operation it is made of keeps the invariant. -/
theorem stepKeepsTheInvariant : Obligations.StepKeepsTheInvariant := by
  unfold Obligations.StepKeepsTheInvariant
  intro s t hs ht
  exact State.inv_iff.mpr ((State.inv_iff.mp hs).step_next ht)

/-- A construction lists values of the image alone, and its registers are 0. -/
theorem inv_constructed {p : Params} {image : List Int} (hp : p.wf = true) (himage : ∀ v ∈ image, p.inRange v = true) :
    Inv (constructed p image) where
  params_wf := hp
  mem_wf := Memory.ofImage_wf image
  ip_inRange := inRange_zero hp
  rb_inRange := inRange_zero hp
  cells_inRange c hc := by
    obtain ⟨-, -, -, hvalue⟩ := imageCells_bounds hc
    exact himage c.2 hvalue
  inq_inRange := by simp [constructed]
  out_inRange := by simp [constructed]

/-- Settles O51: reset is the construction from the empty image, and a construction that succeeds had its image in WORD_RANGE. -/
theorem invariantHoldsAtConstruction : Obligations.InvariantHoldsAtConstruction := by
  unfold Obligations.InvariantHoldsAtConstruction
  refine ⟨?reset, fun p image s hp hs => ?construct⟩
  case reset =>
    rw [State.reset_eq_constructed]
    exact State.inv_iff.mpr (inv_constructed (by decide) (by simp))
  case construct =>
    obtain ⟨himage, rfl⟩ := construct_ok_iff.mp hs
    exact State.inv_iff.mpr (inv_constructed hp himage)

end Sys2Proof.Machine
end

section
/-! States that read the same step alike (spec/10_state.md R29, 20_memory.md R48): every operation gives them the same value or the
same fault, and memories that read the same still do after the same store. -/

namespace Sys2Proof.Machine

/-! ### Computations that end alike -/

/-- Two computations fault alike, or both answer and their answers are related. -/
def Alike {α : Type} (R : α → α → Prop) : Except Fault α → Except Fault α → Prop
  | .ok a, .ok b => R a b
  | .error f, .error g => f = g
  | _, _ => False

theorem Alike.bind {α β : Type} {R : α → α → Prop} {Q : β → β → Prop} {r r' : Except Fault α} {k k' : α → Except Fault β}
    (h : Alike R r r') (hk : ∀ a b, R a b → Alike Q (k a) (k' b)) : Alike Q (r >>= k) (r' >>= k') := by
  match r, r', h with
  | .ok a, .ok b, h => exact hk a b h
  | .error f, .error g, h => exact h

/-- The same computation, continued alike whatever it answers. -/
theorem Alike.bind_same {α β : Type} {Q : β → β → Prop} (r : Except Fault α) {k k' : α → Except Fault β}
    (hk : ∀ a, Alike Q (k a) (k' a)) : Alike Q (r >>= k) (r >>= k') := by
  cases r with
  | ok a => exact hk a
  | error f => rfl

theorem Alike.conclude {r r' : Except Fault State} (h : Alike SameVisible r r') : SameOutcome (conclude r) (conclude r') := by
  cases r <;> cases r' <;> exact h

namespace SameVisible

/-! ### The operations on states that read the same -/

section
variable {s t : State} (h : SameVisible s t)
include h

theorem label_eq : s.label = t.label := by
  rw [State.label, State.label, h.ip_eq, h.cell_eq]

theorem argCell_eq : s.argCell = t.argCell := by
  funext k
  rw [State.argCell, State.argCell, h.ip_eq, h.cell_eq]

theorem fetch_eq : fetch s = fetch t := by
  simp only [fetch, h.ip_eq, h.params_eq, h.label_eq, h.argCell_eq]

theorem checked_eq (v : Int) : checked s v = checked t v := by
  simp only [checked, h.params_eq, h.ip_eq, h.label_eq]

theorem memRead_eq (a : Int) : memRead s a = memRead t a := by
  simp only [memRead, h.ip_eq, h.label_eq, h.cell_eq]

theorem advance_eq (op : Opcode) : advance s op = advance t op := by
  simp only [advance, h.ip_eq, h.checked_eq]

theorem takeInput_eq : takeInput s = takeInput t := by
  simp only [takeInput, h.inq_eq, h.ip_eq, h.label_eq]

theorem relativeAddr_eq (raw : Int) : relativeAddr s raw = relativeAddr t raw := by
  simp only [relativeAddr, h.rb_eq, h.checked_eq]

theorem rd_eq (x : Arg) : rd s x = rd t x := by
  simp only [rd, h.relativeAddr_eq, h.memRead_eq]

theorem wa_eq (d : Arg) : wa s d = wa t d := by
  simp only [wa, h.relativeAddr_eq]

theorem withIp (v : Int) : SameVisible (s.withIp v) (t.withIp v) := { h with ip_eq := rfl }

theorem withRb (v : Int) : SameVisible (s.withRb v) (t.withRb v) := { h with rb_eq := rfl }

theorem withStatus (v : Status) : SameVisible (s.withStatus v) (t.withStatus v) := { h with status_eq := rfl }

theorem withInq (q : List Int) : SameVisible (s.withInq q) (t.withInq q) := { h with inq_eq := rfl }

theorem withOut (q : List Int) : SameVisible (s.withOut q) (t.withOut q) := { h with out_eq := rfl }

theorem withMem {m m' : Memory} (hm : ∀ a, m.cell a = m'.cell a) : SameVisible (s.withMem m) (t.withMem m') :=
  { h with cell_eq := hm }

theorem cell_store_eq (a : Nat) (v : Int) (b : Nat) : (s.mem.store a v).cell b = (t.mem.store a v).cell b := by
  by_cases hb : b = a
  · rw [hb, Memory.cell_store_same, Memory.cell_store_same]
  · rw [Memory.cell_store_other _ _ hb, Memory.cell_store_other _ _ hb, h.cell_eq]

/-- A write is checked against its address and the capacity alone, never against the extent. -/
theorem memWrite_alike (a v : Int) : Alike (fun m m' => ∀ b, m.cell b = m'.cell b) (memWrite s a v) (memWrite t a v) := by
  simp only [memWrite, h.ip_eq, h.label_eq, h.params_eq]
  split
  · rfl
  · split
    · exact h.cell_store_eq _ _
    · rfl

/-! ### The shapes of the instructions -/

theorem writeBack_alike (next : Int) (d : Arg) (v : Int) : Alike SameVisible (writeBack s next d v) (writeBack t next d v) := by
  simp only [writeBack, h.wa_eq]
  exact .bind_same _ fun a => (h.memWrite_alike a v).bind fun m m' hm => (h.withIp next).withMem hm

theorem storeBinary_alike (op : Opcode) {result result' : Int → Int → Except Fault Int} (hr : ∀ a b, result a b = result' a b)
    (x y d : Arg) : Alike SameVisible (storeBinary op result x y d s) (storeBinary op result' x y d t) := by
  simp only [storeBinary, h.advance_eq, h.rd_eq, hr]
  exact .bind_same _ fun next => .bind_same _ fun _ => .bind_same _ fun _ => .bind_same _ fun v => h.writeBack_alike next d v

theorem jumpIf_alike (op : Opcode) (taken : Int → Bool) (x y : Arg) :
    Alike SameVisible (jumpIf op taken x y s) (jumpIf op taken x y t) := by
  simp only [jumpIf, h.advance_eq, h.rd_eq]
  exact .bind_same _ fun _ => .bind_same _ fun _ => .bind_same _ fun _ => h.withIp _

theorem execIn_same (d : Arg) : SameOutcome (execIn d s) (execIn d t) := by
  simp only [execIn, h.advance_eq, h.takeInput_eq]
  exact Alike.conclude (.bind_same _ fun next => .bind_same _ fun vq => (h.writeBack_alike next d vq.1).bind
    fun _ _ hw => hw.withInq vq.2)

theorem execOut_same (x : Arg) : SameOutcome (execOut x s) (execOut x t) := by
  simp only [execOut, h.advance_eq, h.rd_eq, h.out_eq]
  exact Alike.conclude (.bind_same _ fun next => .bind_same _ fun _ => (h.withIp next).withOut _)

theorem execArb_same (x : Arg) : SameOutcome (execArb x s) (execArb x t) := by
  simp only [execArb, h.advance_eq, h.rd_eq, h.rb_eq, h.checked_eq]
  exact Alike.conclude (.bind_same _ fun next => .bind_same _ fun _ => .bind_same _ fun r => (h.withIp next).withRb r)

theorem exec_same (i : Instr) : SameOutcome (exec i s) (exec i t) := by
  cases i with
  | add x y d => exact (h.storeBinary_alike .add (fun _ _ => h.checked_eq _) x y d).conclude
  | mul x y d => exact (h.storeBinary_alike .mul (fun _ _ => h.checked_eq _) x y d).conclude
  | lt x y d => exact (h.storeBinary_alike .lt (fun _ _ => rfl) x y d).conclude
  | eq x y d => exact (h.storeBinary_alike .eq (fun _ _ => rfl) x y d).conclude
  | jt x y => exact (h.jumpIf_alike .jt isTrue x y).conclude
  | jf x y => exact (h.jumpIf_alike .jf isFalse x y).conclude
  | inp d => exact h.execIn_same d
  | out x => exact h.execOut_same x
  | arb x => exact h.execArb_same x
  | hlt => exact h.withStatus .halted

end

end SameVisible

/-- Settles O53: both states fetch the same instruction or the same fault, and an instruction ends alike in both. -/
theorem extentIsUnobservable : Obligations.ExtentIsUnobservable := by
  unfold Obligations.ExtentIsUnobservable
  intro s t h
  simp only [step, h.status_eq, h.fetch_eq]
  split
  · exact h
  · rfl
  · split
    · rfl
    · exact h.exec_same _

end Sys2Proof.Machine
end

section
/-! The input queue over a step and a call, and the two driving modes under fuel (spec/42_io.md R112, 40_engine.md R94 to R98). -/

namespace Sys2Proof.Machine

/-! ### The input queue -/

/-- Every effect of a step on the queue: none, or an IN that takes the head and stores it. -/
theorem step_next_inq {s t : State} (h : step s = .next t) : t.inq = s.inq ∨
    ∃ d v c, fetch s = .ok (.inp d) ∧ s.inq = v :: t.inq ∧ Targets s d c ∧ t.mem = s.mem.store c v := by
  rcases step_next_iff.mp h with ⟨-, rfl⟩ | ⟨-, i, hi, hexec⟩
  · exact .inl rfl
  · rcases exec_next_inq hexec with ⟨hq, -⟩ | ⟨d, v, c, rfl, hq, hd, hm⟩
    · exact .inl hq
    · exact .inr ⟨d, v, c, hi, hq, hd, hm⟩

theorem exec_inp_next_inq {d : Arg} {s t : State} (h : exec (.inp d) s = .next t) :
    ∃ v c, s.inq = v :: t.inq ∧ Targets s d c ∧ t.mem.cell c = v := by
  obtain ⟨-, v, q, c, hq, hd, rfl⟩ := execIn_next_iff.mp h
  exact ⟨v, c, hq, hd, Memory.cell_store_same s.mem c v⟩

theorem presentInput_of_inRange {s : State} {inputs : List Int} (h : ∀ v ∈ inputs, s.params.inRange v = true) :
    presentInput s inputs = .ok (s.withInq inputs) :=
  presentInput_ok_iff.mpr ⟨h, rfl⟩

theorem runToCompletion_of_inRange {n : Nat} {s : State} {inputs : List Int} (h : ∀ v ∈ inputs, s.params.inRange v = true) :
    runToCompletion n s inputs = completionLoop n (s.withInq inputs) := by
  rw [runToCompletion, presentInput_of_inRange h]

theorem runToNextOutput_of_inRange {n : Nat} {s : State} {inputs : List Int} (h : ∀ v ∈ inputs, s.params.inRange v = true) :
    runToNextOutput n s inputs = nextOutputLoop n (s.withInq inputs) := by
  rw [runToNextOutput, presentInput_of_inRange h]

/-- Settles O23: an IN takes the head, no other step looks at the queue, and a call presents its input before its loop. -/
theorem inputQueueIsConsumedByInAlone : Obligations.InputQueueIsConsumedByInAlone := by
  unfold Obligations.InputQueueIsConsumedByInAlone
  refine ⟨fun s t h hs d hi => exec_inp_next_inq (exec_of_step hs hi h), fun s t h hne => ?otherSteps, fun p image s hs => ?built,
    fun s t h hq => ?inRange, fun s inputs => presentInput_of_inRange, fun s inputs hout => ?refused,
    fun n s inputs hin => ⟨runToCompletion_of_inRange hin, runToNextOutput_of_inRange hin⟩⟩
  case otherSteps =>
    rcases step_next_inq h with hq | ⟨d, -, -, hi, -⟩
    · exact hq
    · exact absurd hi (hne d)
  case built =>
    obtain ⟨-, rfl⟩ := construct_ok_iff.mp hs
    rfl
  case inRange =>
    rw [stepsKeepTheParameters s t h]
    rcases step_next_inq h with hsame | ⟨d, v, c, -, hhead, -⟩
    · rwa [hsame]
    · rw [hhead] at hq
      exact (List.forall_mem_cons.mp hq).2
  case refused =>
    obtain ⟨v, -, -, hfirst⟩ := exists_firstOutOfRange hout
    exact ⟨v, presentInput_of_firstOutOfRange hfirst⟩

/-! ### One round of each loop -/

section
variable {n : Nat} {s t : State} {v : Int} {f : Fault}

theorem completionLoop_of_next (h : stepResult s = .next t) : completionLoop (n + 1) s = completionLoop n t := by
  rw [completionLoop, h]

theorem completionLoop_of_output (h : stepResult s = .output v t) : completionLoop (n + 1) s = completionLoop n t := by
  rw [completionLoop, h]

theorem completionLoop_of_halted (h : stepResult s = .halted t) : completionLoop (n + 1) s = .completed t.out t := by
  rw [completionLoop, h]

theorem completionLoop_of_fault (h : stepResult s = .fault f t) : completionLoop (n + 1) s = .failed f t := by
  rw [completionLoop, h]

theorem nextOutputLoop_of_next (h : stepResult s = .next t) : nextOutputLoop (n + 1) s = nextOutputLoop n t := by
  rw [nextOutputLoop, h]

theorem nextOutputLoop_of_output (h : stepResult s = .output v t) : nextOutputLoop (n + 1) s = .value v t := by
  rw [nextOutputLoop, h]

theorem nextOutputLoop_of_halted (h : stepResult s = .halted t) : nextOutputLoop (n + 1) s = .done t := by
  rw [nextOutputLoop, h]

theorem nextOutputLoop_of_fault (h : stepResult s = .fault f t) : nextOutputLoop (n + 1) s = .failed f t := by
  rw [nextOutputLoop, h]

end

/-! ### Run-to-next-output -/

/-- What a run-to-next-output answer `r`, begun at `s`, says of its final state and of run-to-completion with the same fuel
(R94, R95). -/
def NextOutputEnd (n : Nat) (s : State) : CallResult → Prop
  | .value v t => t.out = s.out ++ [v] ∧ t.status = .running ∧
      ∃ k, 0 < k ∧ k ≤ n ∧ ∀ m, completionLoop (k + m) s = completionLoop m t
  | .done t => completionLoop n s = .completed t.out t ∧ t.out = s.out ∧ t.status = .halted
  | .failed f t => completionLoop n s = .failed f t ∧ t.out = s.out ∧ t.status = .faulted f
  | _ => True

/-- A round without an output moves the start of the call and nothing else. -/
theorem NextOutputEnd.of_next {n : Nat} {s t : State} {r : CallResult} (h : NextOutputEnd n t r) (hout : t.out = s.out)
    (hnext : stepResult s = .next t) : NextOutputEnd (n + 1) s r := by
  have hloop (m : Nat) : completionLoop (m + 1) s = completionLoop m t := completionLoop_of_next hnext
  cases r with
  | value v u =>
    obtain ⟨hu, hstatus, k, hpos, hle, hresume⟩ := h
    refine ⟨hout ▸ hu, hstatus, k + 1, by omega, by omega, fun m => ?_⟩
    rw [Nat.add_right_comm, hloop, hresume]
  | done u => obtain ⟨hend, hu, hstatus⟩ := h; exact ⟨(hloop n).trans hend, hu.trans hout, hstatus⟩
  | failed f u => obtain ⟨hend, hu, hstatus⟩ := h; exact ⟨(hloop n).trans hend, hu.trans hout, hstatus⟩
  | completed | outOfFuel | refused => trivial

theorem nextOutputEnd_nextOutputLoop (n : Nat) (s : State) : NextOutputEnd n s (nextOutputLoop n s) := by
  induction n generalizing s with
  | zero => trivial
  | succ n ih =>
    rcases stepResult_cases s with ⟨t, hr, -, hout, -⟩ | ⟨v, t, hr, -, hout, hstatus, -⟩ | ⟨t, hr, -, hout, hstatus⟩ | ⟨f, hr, -⟩
    · rw [nextOutputLoop_of_next hr]
      exact (ih t).of_next hout hr
    · rw [nextOutputLoop_of_output hr]
      refine ⟨hout, hstatus, 1, by omega, by omega, fun m => ?_⟩
      rw [Nat.add_comm, completionLoop_of_output hr]
    · rw [nextOutputLoop_of_halted hr]
      exact ⟨completionLoop_of_halted hr, hout, hstatus⟩
    · rw [nextOutputLoop_of_fault hr]
      exact ⟨completionLoop_of_fault hr, rfl, rfl⟩

theorem nextOutputEnd_of_eq {n : Nat} {s : State} {r : CallResult} (h : nextOutputLoop n s = r) : NextOutputEnd n s r :=
  h ▸ nextOutputEnd_nextOutputLoop n s

/-- Settles O54: presenting input leaves the stream, and the loop answers a value at the first output. -/
theorem nextOutputReturnsAtTheFirstOutput : Obligations.NextOutputReturnsAtTheFirstOutput := by
  unfold Obligations.NextOutputReturnsAtTheFirstOutput
  intro fuel s t inputs v h
  cases hp : presentInput s inputs with
  | error r => rw [runToNextOutput, hp] at h; cases h
  | ok u =>
    obtain ⟨hin, -⟩ := presentInput_ok_iff.mp hp
    rw [runToNextOutput_of_inRange hin] at h
    obtain ⟨hout, hstatus, -⟩ := nextOutputEnd_of_eq h
    exact ⟨hout, hstatus⟩

/-- Settles O55: the number of steps is that of the rounds up to the output. -/
theorem resumingContinuesTheRun : Obligations.ResumingContinuesTheRun := by
  unfold Obligations.ResumingContinuesTheRun
  intro n s t v h
  obtain ⟨-, -, hresume⟩ := nextOutputEnd_of_eq h
  exact hresume

/-- Settles O56: without an output the two loops make the same rounds. -/
theorem nextOutputEndsAsCompletion : Obligations.NextOutputEndsAsCompletion := by
  unfold Obligations.NextOutputEndsAsCompletion
  exact fun n s t => ⟨nextOutputEnd_of_eq, fun f => nextOutputEnd_of_eq⟩

/-! ### Run-to-completion -/

/-- A run that ended within `n` steps ends the same within more (decision D21). -/
theorem completionLoop_add {n : Nat} {s : State} (h : ∀ u, completionLoop n s ≠ .outOfFuel u) (m : Nat) :
    completionLoop (n + m) s = completionLoop n s := by
  induction n generalizing s with
  | zero => exact absurd rfl (h s)
  | succ n ih =>
    rw [Nat.add_right_comm]
    rcases stepResult_cases s with ⟨t, hr, -⟩ | ⟨v, t, hr, -⟩ | ⟨t, hr, -⟩ | ⟨f, hr, -⟩
    · rw [completionLoop_of_next hr] at h ⊢
      rw [completionLoop_of_next hr, ih h]
    · rw [completionLoop_of_output hr] at h ⊢
      rw [completionLoop_of_output hr, ih h]
    · rw [completionLoop_of_halted hr, completionLoop_of_halted hr]
    · rw [completionLoop_of_fault hr, completionLoop_of_fault hr]

/-- What a run-to-completion answer says of its final state (R94). -/
def CompletionEnd : CallResult → Prop
  | .completed outs t => outs = t.out ∧ t.status = .halted
  | .failed f t => t.status = .faulted f
  | _ => True

theorem completionEnd_completionLoop (n : Nat) (s : State) : CompletionEnd (completionLoop n s) := by
  induction n generalizing s with
  | zero => trivial
  | succ n ih =>
    rcases stepResult_cases s with ⟨t, hr, -⟩ | ⟨v, t, hr, -⟩ | ⟨t, hr, -, -, hstatus⟩ | ⟨f, hr, -⟩
    · rw [completionLoop_of_next hr]; exact ih t
    · rw [completionLoop_of_output hr]; exact ih t
    · rw [completionLoop_of_halted hr]; exact ⟨rfl, hstatus⟩
    · rw [completionLoop_of_fault hr]; exact takeFault_status s f

theorem completionEnd_of_eq {n : Nat} {s : State} {r : CallResult} (h : completionLoop n s = r) : CompletionEnd r :=
  h ▸ completionEnd_completionLoop n s

/-- Settles O57: neither end is running out of fuel, and each says what its final state is. -/
theorem moreFuelChangesNoEnd : Obligations.MoreFuelChangesNoEnd := by
  unfold Obligations.MoreFuelChangesNoEnd
  intro n m s t outs f
  constructor
  · intro h
    exact ⟨(completionLoop_add (by simp [h]) m).trans h, completionEnd_of_eq h⟩
  · intro h
    exact ⟨(completionLoop_add (by simp [h]) m).trans h, completionEnd_of_eq h⟩

theorem safeFor_succ_iff {n : Nat} {s : State} : safeFor (n + 1) s = true ↔ ∃ t, step s = .next t ∧ safeFor n t = true := by
  rw [safeFor]
  cases step s <;> simp

/-- Every round of a safe run is a next state, so the loop goes on, completes or runs out of fuel. -/
theorem completionLoop_ne_failed {n : Nat} {s : State} (h : safeFor n s = true) (f : Fault) (t : State) :
    completionLoop n s ≠ .failed f t := by
  induction n generalizing s with
  | zero => rw [completionLoop]; simp
  | succ n ih =>
    obtain ⟨u, hu, hsafe⟩ := safeFor_succ_iff.mp h
    rcases stepResult_cases s with ⟨t', hr, ht, -⟩ | ⟨v, t', hr, ht, -⟩ | ⟨t', hr, -⟩ | ⟨f', -, hf⟩
    · obtain rfl : u = t' := by simpa [hu] using ht
      rw [completionLoop_of_next hr]; exact ih hsafe
    · obtain rfl : u = t' := by simpa [hu] using ht
      rw [completionLoop_of_output hr]; exact ih hsafe
    · rw [completionLoop_of_halted hr]; simp
    · rw [hu] at hf; cases hf

/-- Settles O58: a safe run meets no fault; a faulted engine's first round is its fault again, and taking it changes nothing. -/
theorem faultsEndTheRun : Obligations.FaultsEndTheRun := by
  unfold Obligations.FaultsEndTheRun
  refine ⟨fun n s t f h => completionLoop_ne_failed h f t, fun n s f inputs hs hin => ?_⟩
  have hr : stepResult (s.withInq inputs) = .fault f (s.withInq inputs) := stepResult_of_faulted hs
  exact ⟨(runToCompletion_of_inRange hin).trans (completionLoop_of_fault hr),
    (runToNextOutput_of_inRange hin).trans (nextOutputLoop_of_fault hr)⟩

end Sys2Proof.Machine
end
